-- ==== Sys2Proof/Word.lean ====
section
/-! DEFINITION. The word types of the block (00_scope.md R10: a byte is 8 bits, unsigned) and exact ratios (R9). -/

namespace Sys2Proof

/-- `u8` of R10: one byte, one PCM sample or one tape byte. -/
abbrev Byte := BitVec 8

/-- `u16` of R10. -/
abbrev Half := BitVec 16

/-- `u32` of R10. -/
abbrev Word := BitVec 32

/-- An exact rational given as numerator and denominator (R9, R113: "a model uses `Rat` or `Nat` numerator and
denominator"). The numerator may be negative and the denominator zero, so that the durations R158 calls negative or
non-finite can be presented on the duration port and refused there. -/
structure Ratio where
  num : Int
  den : Nat
  deriving DecidableEq, Repr

end Sys2Proof
end

