-- ==== Sys2Proof/Syntax.lean ====
section
/-! DEFINITION. The operations of the block, one constructor per row of spec/opcode_table.json (30_encoding.md R111),
with their operands as typed values (R113), and the two record shapes the operations handle (R21, R256). -/

namespace Sys2Proof

/-- The three tone kinds (R37). -/
inductive Tone where
  | start
  | zero
  | one
  deriving DecidableEq, Repr

/-- The 4096-byte image on the wires of a step inside `ENCODE`, whose length check has passed (R41, R170). -/
abbrev Image := Vector Byte 4096

/-- The header record `HDR[0]` to `HDR[7]`, in transmission order (R21). -/
structure HeaderRecord where
  addressLow : Byte
  addressHigh : Byte
  bankConfig : Byte
  blockCount : Byte
  checksum : Byte
  multiload : Byte
  progressSpeedLow : Byte
  progressSpeedHigh : Byte
  deriving DecidableEq, Repr

/-- A record of the diagnostic stream `DIAG` (R256). -/
inductive DiagRecord where
  | address (a : Half)
  | bankConfig (v : Byte)
  | blockCount (v : Byte)
  | multiload (v : Byte)
  | loadSpeed (v : Half)
  | blockChecksum (block : Fin 16) (c : Byte)
  deriving DecidableEq, Repr

/-- The operation set (R111): seven the host issues, five steps of `ENCODE`, three functions of the checksum engine.
`header` and `block` carry the image `ENCODE` was given, which they read; it is no operand of their own (R176, R178). -/
inductive Instr where
  | reset
  | synth (t : Tone)
  | wbyte (b : Byte)
  | wdur (b : Byte) (d : Ratio)
  | push (seq : List Byte)
  | finalize
  | encode (rom : List Byte)
  | stone
  | calib
  | header (image : Image)
  | block (image : Image)
  | trailer
  | page (b : Nat)
  | hcsum
  | bcsum (page : Byte) (data : Vector Byte 256)
  deriving DecidableEq, Repr

/-- Who an operation may come from, the "kind" column of R111. -/
inductive OpKind where
  | host
  | step
  | function
  deriving DecidableEq, Repr

/-- The kind of each operation (R111). -/
def Instr.kind : Instr → OpKind
  | .reset => .host
  | .synth _ => .host
  | .wbyte _ => .host
  | .wdur _ _ => .host
  | .push _ => .host
  | .finalize => .host
  | .encode _ => .host
  | .stone => .step
  | .calib => .step
  | .header _ => .step
  | .block _ => .step
  | .trailer => .step
  | .page _ => .function
  | .hcsum => .function
  | .bcsum _ _ => .function

end Sys2Proof
end

