-- ==== Sys2Proof/Config.lean ====
section
/-! DEFINITION. The configuration record `CFG` (00_scope.md R7), the open parameter `DIAG_FORMAT` (R258) and the free
value of the model. -/

namespace Sys2Proof

/-- The type of the one configuration record (R7: "a model should take it as one record"). -/
structure Config where
  sampleRate : Nat
  zeroCycle : Nat
  oneCycle : Nat
  startCycle : Nat
  volStart : Ratio
  volZero : Ratio
  volOne : Ratio
  startSeconds : Ratio
  headerSeconds : Ratio
  endSeconds : Ratio
  calibByte : Byte
  syncByte : Byte
  trailerByte : Byte
  bankConfig : Byte
  multiload : Byte
  progressLo : Byte
  progressHi : Byte
  csumSeed : Byte
  pageLimit : Nat
  romSize : Nat
  blockSize : Nat
  formatCode : Nat
  channels : Nat
  depth : Nat
  deriving DecidableEq, Repr

/-- `CFG`: hardwired, every field at its one legal value (R7, R32). -/
def Config.cfg : Config where
  sampleRate := 44100
  zeroCycle := 6
  oneCycle := 10
  startCycle := 51
  volStart := ⟨49, 50⟩
  volZero := ⟨49, 50⟩
  volOne := ⟨49, 50⟩
  startSeconds := ⟨1, 10⟩
  headerSeconds := ⟨1, 2⟩
  endSeconds := ⟨1, 2⟩
  calibByte := 0x55
  syncByte := 0x54
  trailerByte := 0x00
  bankConfig := 0x1d
  multiload := 0x00
  progressLo := 0xc3
  progressHi := 0x01
  csumSeed := 0x55
  pageLimit := 0x1f
  romSize := 4096
  blockSize := 256
  formatCode := 1
  channels := 1
  depth := 8

/-- `BLOCK_COUNT` (R8, R110): the image's length in blocks. -/
def Config.blockCount : Nat := Config.cfg.romSize / Config.cfg.blockSize

/-- `BYTES_PER_SECOND` (R8, R150): rate / (zero + one) / 4 by exact division, 44100/64 = 11025/16 (decision D5). -/
def Config.bytesPerSecond : Ratio :=
  ⟨(Config.cfg.sampleRate : Int), (Config.cfg.zeroCycle + Config.cfg.oneCycle) * 4⟩

/-- `CONTAINER_HEADER_BYTES` (R220): kept named because of conflict C1. -/
def Config.containerHeaderBytes : Nat := 44

/-- `LEN_MAX` (R219): the largest `LEN` for which 36 + `LEN` fits the 32-bit total-size field. -/
def Config.lenMax : Nat := 2 ^ 32 - 1 - 36

/-- `DIAG_FORMAT` (R258, open parameter of 92_eei_decisions.md): the text of a diagnostic record. No body: the spec
gives no text. Only the host applies it. -/
opaque Config.diagFormat : DiagRecord → List Byte

/-- FREE VALUE (log entry 7): byte `i` of the header register file when it holds no value and is read for the `n`-th
time. No body: nothing can be proved of it. -/
opaque Config.freeByte : Nat → Nat → Byte

end Sys2Proof
end

