-- ==== Sys2Proof/WellFormed.lean ====
section
/-! DEFINITION. Which operand values lie in the domains the spec gives them (R113, R115, R154, R179). An operation whose
operands do not is still issued and decoded; its own meaning raises the fault or the refusal the spec names for it. -/

namespace Sys2Proof

/-- `d` is a rational number at all, and is not negative (R113: "an exact non-negative rational"). -/
def Ratio.nonNegative (d : Ratio) : Bool := d.den != 0 && decide (0 ≤ d.num)

/-- The operands are in the domains of R113: a duration that is a non-negative rational (R154), an image of 4096 bytes
(R115), a block index of 0 to 15 (R179). -/
def Instr.wellFormed : Instr → Bool
  | .reset => true
  | .synth _ => true
  | .wbyte _ => true
  | .wdur _ d => d.nonNegative
  | .push _ => true
  | .finalize => true
  | .encode rom => rom.length == 4096
  | .stone => true
  | .calib => true
  | .header _ => true
  | .block _ => true
  | .trailer => true
  | .page b => decide (b < 16)
  | .hcsum => true
  | .bcsum _ _ => true

end Sys2Proof
end

