-- ==== Sys2Proof/Decode.lean ====
section
/-! DEFINITION. The command interface (30_encoding.md R104, R111 to R114): the selector and operand ports, decoding them
into an operation, and encoding an operation onto them. -/

namespace Sys2Proof

/-- Who drives a command: the host on the command interface, or the sequencer on its own step wires inside `ENCODE` (the
"kind" column of R111). -/
inductive Issuer where
  | host
  | sequencer
  deriving DecidableEq, Repr

/-- One command: the 4-bit selector `op[3:0]` and the operand ports beside it (R104, R113). A port an operation does not
use is not looked at. `image`, `page` and `data` are wires inside the block (R176, R178, R180). -/
structure Command where
  op : BitVec 4
  tone : BitVec 2 := 0
  byte : Byte := 0
  duration : Ratio := ⟨0, 1⟩
  seq : List Byte := []
  rom : List Byte := []
  index : Nat := 0
  image : Image := Vector.replicate 4096 0
  page : Byte := 0
  data : Vector Byte 256 := Vector.replicate 256 0
  deriving DecidableEq, Repr

/-- Why a command is no operation (R114). -/
inductive Reject where
  | reservedSelector
  | reservedTone
  deriving DecidableEq, Repr

/-- The tone port (R113): START = 0, ZERO = 1, ONE = 2, value 3 reserved. -/
def decodeTone (t : BitVec 2) : Except Reject Tone :=
  if t = 0 then .ok .start
  else if t = 1 then .ok .zero
  else if t = 2 then .ok .one
  else .error .reservedTone

/-- Decode a command (R111, R112: the selector is matched on all four bits). Total; reserved codes are rejected by name
(R114). -/
def decode (c : Command) : Except Reject Instr :=
  if c.op = 0x0 then .ok .reset
  else if c.op = 0x1 then (decodeTone c.tone).map .synth
  else if c.op = 0x2 then .ok (.wbyte c.byte)
  else if c.op = 0x3 then .ok (.wdur c.byte c.duration)
  else if c.op = 0x4 then .ok (.push c.seq)
  else if c.op = 0x5 then .ok .finalize
  else if c.op = 0x6 then .ok (.encode c.rom)
  else if c.op = 0x7 then .ok .stone
  else if c.op = 0x8 then .ok .calib
  else if c.op = 0x9 then .ok (.header c.image)
  else if c.op = 0xa then .ok (.block c.image)
  else if c.op = 0xb then .ok .trailer
  else if c.op = 0xc then .ok (.page c.index)
  else if c.op = 0xd then .ok .hcsum
  else if c.op = 0xe then .ok (.bcsum c.page c.data)
  else .error .reservedSelector

/-- The tone code (R113). -/
def encodeTone : Tone → BitVec 2
  | .start => 0
  | .zero => 1
  | .one => 2

/-- Who may issue an operation of each kind (R111, R114). -/
def OpKind.issuer : OpKind → Issuer
  | .host => .host
  | .step => .sequencer
  | .function => .sequencer

/-- Encode an operation: its selector code (R111), its operands on their ports (R113). -/
def encode : Instr → Command
  | .reset => { op := 0x0 }
  | .synth t => { op := 0x1, tone := encodeTone t }
  | .wbyte b => { op := 0x2, byte := b }
  | .wdur b d => { op := 0x3, byte := b, duration := d }
  | .push seq => { op := 0x4, seq := seq }
  | .finalize => { op := 0x5 }
  | .encode rom => { op := 0x6, rom := rom }
  | .stone => { op := 0x7 }
  | .calib => { op := 0x8 }
  | .header image => { op := 0x9, image := image }
  | .block image => { op := 0xa, image := image }
  | .trailer => { op := 0xb }
  | .page b => { op := 0xc, index := b }
  | .hcsum => { op := 0xd }
  | .bcsum page data => { op := 0xe, page := page, data := data }

/-- The command whose selector is the table's word `w`, every operand port at zero (an empty sequence, an all-zero
image). A number of more than four bits is no selector: it stands for the reserved one. -/
def tableCommand (w : Nat) : Command :=
  if 16 ≤ w then { op := 0xf } else { op := BitVec.ofNat 4 w }

/-- Who may drive the table's word `w`: the host, the reserved selector too; the sequencer a step or a function (R111). -/
def tableIssuer (w : Nat) : Issuer :=
  if 7 ≤ w ∧ w ≤ 14 then .sequencer else .host

/-- The operation the decoder reads from the table's word `w` (operand ports zero); `none` where it rejects. The table
gives every row 4 bits, so the number of bits does not matter. -/
def decodeTableWord (_nbits w : Nat) : Option Instr :=
  match decode (tableCommand w) with
  | .ok i => some i
  | .error _ => none

end Sys2Proof
end

