-- ==== Sys2Proof/Machine/State.lean ====
section
/-! DEFINITION. The architectural state (10_state.md R20 to R47), its reset values (R46), and the reasons an operation
stops or is turned away (60_exceptions.md R244, R245). -/

namespace Sys2Proof.Machine

/-- The phase register `PHASE` (R28). Code 3 is reserved and never entered, so it has no constructor. -/
inductive Phase where
  /-- reset state: no conversion has run on this buffer -/
  | idle
  /-- `ENCODE` has completed on this buffer -/
  | done
  /-- the precondition of `ENCODE` was violated -/
  | fault
  deriving DecidableEq, Repr

/-- The 2-bit value the host reads for a phase (R28). -/
def Phase.code : Phase → BitVec 2
  | .idle => 0
  | .done => 1
  | .fault => 2

/-- Refusal reasons (R245), the reason reported being the first whose check applies. -/
inductive Reason where
  | faulted
  | alreadyEncoded
  | bufferFinal
  | tableInvalid
  | bufferFull
  | badOperand
  | reservedOp
  | notHostOp
  | outOfDomain
  deriving DecidableEq, Repr

/-- What the block tells the host about an operation that did not complete: the length a `RomSizeFault` carries (R240,
R241), or the reason of a refusal (R245). -/
inductive Report where
  | romSizeFault (len : Nat)
  | refusal (r : Reason)
  deriving DecidableEq, Repr

/-- Why a step stops the machine. -/
inductive Fault where
  /-- Raised by every operation but `RESET`, and by the command interface, when `REFUSED` = 1: "after a refusal the run
  has ended and a model takes no further step (stuck) until `RESET`" (93 U10, R244). Safe: the model stops where the
  block's behaviour is unspecified. -/
  | stuckAfterRefusal
  deriving DecidableEq, Repr

/-- Why a step has no meaning. -/
inductive Refusal where
  /-- Raised by an arm of `exec` that has no meaning yet; no arm raises it. Safe: nothing is claimed of it. -/
  | notModelled (mnemonic : String)
  deriving DecidableEq, Repr

/-- The state of one instance: the tuple of R47, then four fields of the model's own. A register or table that "holds no
value" (R27, R39, R43, R46) is `none`. -/
@[ext]
structure State where
  /-- `PHASE` (R28, R33) -/
  phase : Phase
  /-- `FINAL` (R33, R217) -/
  final : Bool
  /-- `REFUSED` (R33, R244) -/
  refused : Bool
  /-- `TABLE[START]` (R37) -/
  tableStart : Option (Vector Byte 51)
  /-- `TABLE[ZERO]` (R37) -/
  tableZero : Option (Vector Byte 6)
  /-- `TABLE[ONE]` (R37) -/
  tableOne : Option (Vector Byte 10)
  /-- `HDR[0..7]` (R20, R21) -/
  hdr : Option HeaderRecord
  /-- `BLK`, 5 bits (R20, R22) -/
  blk : BitVec 5
  /-- `PAGE` (R20, R23) -/
  page : Option Byte
  /-- `CSUM` (R20, R24) -/
  csum : Option Byte
  /-- `BUF` (R42), oldest sample first -/
  buf : List Byte
  /-- `OUT` (R43) -/
  out : Option (List Byte)
  /-- `DIAG` (R44), oldest record first -/
  diag : List DiagRecord
  /-- MODEL'S OWN (log entry 5): the last fault or refusal told to the host, until `RESET` -/
  report : Option Report
  /-- MODEL'S OWN (log entry 1): the commands the host has presented and the block has not yet taken, next one first -/
  pending : List Command
  /-- MODEL'S OWN (log entry 2): the one command on the sequencer's step wires, a moment inside `ENCODE`; none between
  operations, in every state a step leaves -/
  driven : Option Command
  /-- MODEL'S OWN (log entry 7): how many reads have taken a free value so far -/
  freeIx : Nat
  deriving DecidableEq, Repr

/-- The state after power-on or `RESET` (R46, R271), with no command presented yet. -/
def State.reset : State where
  phase := .idle
  final := false
  refused := false
  tableStart := none
  tableZero := none
  tableOne := none
  hdr := none
  blk := 0
  page := none
  csum := none
  buf := []
  out := none
  diag := []
  report := none
  pending := []
  driven := none
  freeIx := 0

/-- `LEN`, the number of bytes in `BUF` (R34; derived, R47). -/
def State.len (s : State) : Nat := s.buf.length

/-- `TVALID[t]` (R33): 1 exactly where `TABLE[t]` holds a value (R39). -/
def State.tvalid (s : State) : Tone → Bool
  | .start => s.tableStart.isSome
  | .zero => s.tableZero.isSome
  | .one => s.tableOne.isSome

/-- `TABLE[t]` as a sequence of samples, entry 0 first (R37). -/
def State.table (s : State) : Tone → Option (List Byte)
  | .start => s.tableStart.map Vector.toList
  | .zero => s.tableZero.map Vector.toList
  | .one => s.tableOne.map Vector.toList

/-- The byte of `BUF` at offset `a`; `none` at an offset no sample has been appended to. -/
def State.bufRead (s : State) (a : Nat) : Option Byte := s.buf[a]?

/-- `BUF` as a memory of (address, byte) cells, addresses from 0 (R70). -/
def State.bufCells (s : State) : List Host.Cell := s.buf.zipIdx.map fun p => (p.2, p.1)

/-- The canonical form of a list of cells: addresses strictly rising. No address reads as anything unless listed. -/
abbrev Memory.wf (m : List Host.Cell) : Prop := (m.map Prod.fst).Pairwise (· < ·)

/-- The text the host may print for `DIAG`, under the open parameter `DIAG_FORMAT` (R258). -/
def State.diagText (s : State) : List Byte := s.diag.flatMap Config.diagFormat

end Sys2Proof.Machine
end

