-- ==== Sys2Proof/Machine/Operands.lean ====
section
/-! DEFINITION. Operand assembly (30_encoding.md R105 to R110), bit and byte order (20_memory.md R60 to R63), the tone
tables (40 R132 to R134), the symbol and record formats (R91 to R96) and the container (R100, R214). -/

namespace Sys2Proof.Machine

/-- `floor(q)` for a non-negative ratio (R10). -/
def floorRatio (q : Ratio) : Nat := q.num.toNat / q.den

/-- `round(q) = floor(q + 1/2)` for a non-negative ratio (R10). -/
def roundRatio (q : Ratio) : Nat := floorRatio ⟨2 * q.num + q.den, 2 * q.den⟩

/-- The product of two ratios. -/
def mulRatio (p q : Ratio) : Ratio := ⟨p.num * q.num, p.den * q.den⟩

/-- A duration the mapper accepts: a finite number that is not negative (R154, R158). -/
def durationOk (d : Ratio) : Bool := d.nonNegative

/-- `count(d) = floor(d × BYTES_PER_SECOND)` (R106, R155). -/
def repeatCount (d : Ratio) : Nat := floorRatio (mulRatio d Config.bytesPerSecond)

/-- `START_CYCLES = round(START_SECONDS × SAMPLE_RATE / START_CYCLE)` (R8, R107). -/
def startCycles : Nat :=
  roundRatio (mulRatio Config.cfg.startSeconds ⟨(Config.cfg.sampleRate : Int), Config.cfg.startCycle⟩)

/-- The bits of a byte in tape order: bit 7 first, bit 0 last (R61). -/
def bitsMsbFirst (b : Byte) : List Bool :=
  [b.getLsbD 7, b.getLsbD 6, b.getLsbD 5, b.getLsbD 4, b.getLsbD 3, b.getLsbD 2, b.getLsbD 1, b.getLsbD 0]

/-- `popcount(b)` (R10). -/
def popcount (b : Byte) : Nat := (bitsMsbFirst b).count true

/-- `le16(v) = [v[7:0], v[15:8]]` (R11). -/
def le16 (v : Nat) : List Byte := [BitVec.ofNat 8 v, BitVec.ofNat 8 (v / 256)]

/-- `le32(v) = [v[7:0], v[15:8], v[23:16], v[31:24]]` (R11). -/
def le32 (v : Nat) : List Byte :=
  [BitVec.ofNat 8 v, BitVec.ofNat 8 (v / 256), BitVec.ofNat 8 (v / 65536), BitVec.ofNat 8 (v / 16777216)]

/-- `hi × 256 + lo` as 16 bits (R60, R256). -/
def half (hi lo : Byte) : Half := hi ++ lo

/-- The cycle length of a tone's preset (R130). -/
def toneCycle : Tone → Nat
  | .start => Config.cfg.startCycle
  | .zero => Config.cfg.zeroCycle
  | .one => Config.cfg.oneCycle

/-- The volume of a tone's preset (R130). -/
def toneVolume : Tone → Ratio
  | .start => Config.cfg.volStart
  | .zero => Config.cfg.volZero
  | .one => Config.cfg.volOne

/-- `synth(51, 49/50)` (R132). -/
def startTableValues : Vector Byte 51 :=
  #v[128, 143, 159, 173, 187, 200, 213, 223, 233, 240, 246, 251, 253, 253, 252, 249, 244,
     237, 228, 218, 207, 194, 180, 166, 151, 136, 120, 105,  90,  76,  62,  49,  38,  28,
      19,  12,   7,   4,   3,   3,   5,  10,  16,  23,  33,  43,  56,  69,  83,  97, 113]

/-- `synth(6, 49/50)` (R133). -/
def zeroTableValues : Vector Byte 6 := #v[128, 237, 237, 128, 19, 19]

/-- `synth(10, 49/50)` (R134). -/
def oneTableValues : Vector Byte 10 := #v[128, 202, 247, 247, 202, 128, 54, 9, 9, 54]

/-- `synth(n, v)` for the preset of tone `t` (R38, R131 to R134), held as the literal sequences R137 asks for. -/
def toneValues : Tone → List Byte
  | .start => startTableValues.toList
  | .zero => zeroTableValues.toList
  | .one => oneTableValues.toList

/-- `MemRead(ROM, a, 1)` (R66): the byte at offset `a` of the presented image, an offset that exists. -/
def memRead (image : Image) (a : Nat) (h : a < 4096 := by decide) : Byte := image[a]

/-- `ROM[256×b .. 256×b + 256)`, the data of block `b` in ascending order (R96, R108). -/
def blockData (image : Image) (b : Nat) : List Byte :=
  (image.toList.drop (Config.cfg.blockSize * b)).take Config.cfg.blockSize

/-- The header bytes in the order they are sent, `HDR[0]` to `HDR[7]` (R21, R95). -/
def headerBytes (h : HeaderRecord) : List Byte :=
  [h.addressLow, h.addressHigh, h.bankConfig, h.blockCount, h.checksum, h.multiload, h.progressSpeedLow,
   h.progressSpeedHigh]

/-- Each sample replicated across the channel count (R212). -/
def replicateChannels (seq : List Byte) : List Byte :=
  seq.flatMap fun x => List.replicate Config.cfg.channels x

/-- `ascii("RIFF")`, one byte per character (R11, GK1). -/
def tagRiff : List Byte := [0x52, 0x49, 0x46, 0x46]

/-- `ascii("WAVE")` (R11, GK1). -/
def tagWave : List Byte := [0x57, 0x41, 0x56, 0x45]

/-- `ascii("fmt ")`, the fourth character a space (R100, GK1). -/
def tagFmt : List Byte := [0x66, 0x6d, 0x74, 0x20]

/-- `ascii("data")` (R11, GK1). -/
def tagData : List Byte := [0x64, 0x61, 0x74, 0x61]

/-- The fixed fields of the "fmt " sub-chunk after its length word (R100, R214). -/
def formatFields : List Byte :=
  le16 Config.cfg.formatCode ++ le16 Config.cfg.channels ++ le32 Config.cfg.sampleRate ++ le32 Config.cfg.sampleRate
    ++ le16 (Config.cfg.channels * Config.cfg.depth / 8) ++ le16 Config.cfg.depth

/-- The bytes before the samples, for `len` sample bytes (R100, R214, R215). -/
def containerHeader (len : Nat) : List Byte :=
  tagRiff ++ le32 (Config.containerHeaderBytes - 8 + len) ++ tagWave
    ++ tagFmt ++ le32 16 ++ formatFields
    ++ tagData ++ le32 len

/-- `container(BUF)` (R214): the header, then the buffer unchanged (R102, R221). -/
def container (buf : List Byte) : List Byte := containerHeader buf.length ++ buf

end Sys2Proof.Machine
end

