-- ==== Sys2Proof/Machine/Flags.lean ====
section
/-! DEFINITION. The checksum engine's arithmetic (42 R177, R179, R180, R185) and the updates of the status fields
(10_state.md R33). The block has no condition codes: wraparound is recorded nowhere (R31, R243). -/

namespace Sys2Proof.Machine

/-- `HCSUM` (R177): 0x55 less the seven other header bytes, each subtraction with 8-bit wraparound. -/
def headerChecksum (h : HeaderRecord) : Byte :=
  Config.cfg.csumSeed - h.addressLow - h.addressHigh - h.bankConfig - h.blockCount - h.multiload
    - h.progressSpeedLow - h.progressSpeedHigh

/-- `page(b)` for a block index of 0 to 15 (R179): `b × 4 + 1`, less 0x1f once if it exceeds 0x1f. -/
def pageNumber (b : Fin 16) : Byte :=
  let p := b.val * 4 + 1
  BitVec.ofNat 8 (if Config.cfg.pageLimit < p then p - Config.cfg.pageLimit else p)

/-- The sum of a byte sequence mod 256. -/
def byteSum (bytes : List Byte) : Byte := bytes.foldl (· + ·) 0

/-- `bcsum(page, d) = (0x55 - page - Σ d) mod 256` (R180). -/
def blockChecksum (page : Byte) (data : List Byte) : Byte := Config.cfg.csumSeed - page - byteSum data

/-- The header record of an image (R95, R176): address bytes from offsets 4092 and 4093 (R105), the constants of `CFG`,
the block count (R110), and the checksum over the seven others. -/
def headerOf (image : Image) : HeaderRecord :=
  let h : HeaderRecord :=
    { addressLow := memRead image 4092
      addressHigh := memRead image 4093
      bankConfig := Config.cfg.bankConfig
      blockCount := BitVec.ofNat 8 Config.blockCount
      checksum := 0
      multiload := Config.cfg.multiload
      progressSpeedLow := Config.cfg.progressLo
      progressSpeedHigh := Config.cfg.progressHi }
  { h with checksum := headerChecksum h }

/-- The five records `HEADER` emits, in order (R176, R256). -/
def headerDiag (h : HeaderRecord) : List DiagRecord :=
  [.address (half h.addressHigh h.addressLow), .bankConfig h.bankConfig, .blockCount h.blockCount,
   .multiload h.multiload, .loadSpeed (half h.progressSpeedHigh h.progressSpeedLow)]

/-- The record of block `b` (R96): page, checksum, then the 256 data bytes. -/
def blockRecord (image : Image) (b : Fin 16) : List Byte :=
  pageNumber b :: blockChecksum (pageNumber b) (blockData image b) :: blockData image b

/-- A header whose eight bytes are free values: what the header register file reads as while it holds no value (U11, log
entry 7). -/
def freeHeader (n : Nat) : HeaderRecord where
  addressLow := Config.freeByte n 0
  addressHigh := Config.freeByte n 1
  bankConfig := Config.freeByte n 2
  blockCount := Config.freeByte n 3
  checksum := Config.freeByte n 4
  multiload := Config.freeByte n 5
  progressSpeedLow := Config.freeByte n 6
  progressSpeedHigh := Config.freeByte n 7

/-- `REFUSED <- 1`, and the reason reported (R244, R245). Nothing else changes. -/
def setRefused (r : Reason) (s : State) : State :=
  { s with refused := true, report := some (.refusal r) }

/-- `FINAL <- 1` (R217). -/
def setFinal (s : State) : State := { s with final := true }

/-- `PHASE <- DONE` (R28, R170). -/
def setDone (s : State) : State := { s with phase := .done }

end Sys2Proof.Machine
end

