-- ==== Sys2Proof/Machine/Ops.lean ====
section
/-! DEFINITION. The named operations every meaning is written with: running to completion or to a refusal, appending
samples, sending bytes, entering the fault and leaving it, and taking a command off the interface. -/

namespace Sys2Proof.Machine

/-- How an operation's pseudocode ends: it ran to its end, or one of its checks refused it. The state of a refused run
holds what the lines before the refusing one had done (log entry 9). -/
inductive Run where
  | completed (s : State)
  | refused (r : Reason) (s : State)
  deriving DecidableEq, Repr

/-- Sequencing: the second part runs only where the first completed. -/
def Run.andThen (r : Run) (k : State → Run) : Run :=
  match r with
  | .completed s => k s
  | .refused why s => .refused why s

/-- `repeat n times` (R12). -/
def repeatRun (op : State → Run) : Nat → State → Run
  | 0, s => .completed s
  | n + 1, s => (op s).andThen (repeatRun op n)

/-- The state a run leaves: where it was refused, `REFUSED` = 1 and the reason reported (R244). -/
def Run.result : Run → State
  | .completed s => s
  | .refused r s => setRefused r s

/-- Issue an operation other than `RESET`: after a refusal it is stuck (U10), in `PHASE = FAULT` it is refused (R245, the
first check of every operation), else its body runs. -/
def operate (body : State → Run) (s : State) : Host.Outcome State Fault Refusal :=
  if s.refused then .fault .stuckAfterRefusal
  else if s.phase = .fault then .next (setRefused .faulted s)
  else .next (body s).result

/-- The command interface turns a command away (R245: `ReservedOp`, `NotHostOp`), before any operation starts. -/
def refuseCommand (r : Reason) (s : State) : Host.Outcome State Fault Refusal :=
  if s.refused then .fault .stuckAfterRefusal
  else .next (setRefused r s)

/-- `BUF.append(seq)` (R67, R211, R212). -/
def bufAppend (s : State) (seq : List Byte) : State := { s with buf := s.buf ++ replicateChannels seq }

/-- One write on the sink interface (R210): refused on a finalized buffer or past `LEN_MAX` (R219), else appended. -/
def pushSamples (seq : List Byte) (s : State) : Run :=
  if s.final then .refused .bufferFinal s
  else if Config.lenMax < s.len + seq.length * Config.cfg.channels then .refused .bufferFull s
  else .completed (bufAppend s seq)

/-- One sink write per bit (R120, R151): `one` for a 1 bit, `zero` for a 0 bit. -/
def pushBits (zero one : List Byte) : List Bool → State → Run
  | [], s => .completed s
  | b :: bits, s => (pushSamples (if b then one else zero) s).andThen (pushBits zero one bits)

/-- `WBYTE b` (R151). -/
def sendByte (b : Byte) (s : State) : Run :=
  if s.final then .refused .bufferFinal s
  else match s.table .zero, s.table .one with
    | some zero, some one => pushBits zero one (bitsMsbFirst b) s
    | _, _ => .refused .tableInvalid s

/-- `for each byte in order: WBYTE` (R176, R178). -/
def sendBytes : List Byte → State → Run
  | [], s => .completed s
  | b :: bytes, s => (sendByte b s).andThen (sendBytes bytes)

/-- `WDUR b, d` (R154). -/
def sendDuration (b : Byte) (d : Ratio) (s : State) : Run :=
  if durationOk d then repeatRun (sendByte b) (repeatCount d) s
  else .refused .badOperand s

/-- `TABLE[t] <- synth(n, v); TVALID[t] <- 1` (R130). -/
def synthesize (t : Tone) (s : State) : State :=
  match t with
  | .start => { s with tableStart := some startTableValues }
  | .zero => { s with tableZero := some zeroTableValues }
  | .one => { s with tableOne := some oneTableValues }

/-- `DIAG.emit` of each record in order (R12). -/
def emitDiag (recs : List DiagRecord) (s : State) : State := { s with diag := s.diag ++ recs }

/-- `CSUM <- v`. -/
def writeCsum (v : Byte) (s : State) : State := { s with csum := some v }

/-- `PAGE <- v`. -/
def writePage (v : Byte) (s : State) : State := { s with page := some v }

/-- `HDR[0..7] <- h`, all eight bytes (R27). -/
def writeHdr (h : HeaderRecord) (s : State) : State := { s with hdr := some h }

/-- `BLK <- n`, 5 bits (R22). -/
def writeBlk (n : Nat) (s : State) : State := { s with blk := BitVec.ofNat 5 n }

/-- `OUT <- container(BUF)` (R213, R214). -/
def writeOut (s : State) : State := { s with out := some (container s.buf) }

/-- The next free value is another one (log entry 7). -/
def nextFree (s : State) : State := { s with freeIx := s.freeIx + 1 }

/-- TAKING THE FAULT `RomSizeFault(len)` (R240, R249): `PHASE <- FAULT` and nothing else; the length goes to the host
(R241). -/
def takeRomSizeFault (len : Nat) (s : State) : State :=
  { s with phase := .fault, report := some (.romSizeFault len) }

/-- THE WAY OUT OF THE FAULT, and the only one: every piece of state takes its reset value (R251, R270). The commands the
host has still to issue are not the block's state and stay, as does the free-value counter (log entries 1, 7). -/
def resetState (s : State) : State :=
  { State.reset with pending := s.pending, freeIx := s.freeIx }

/-- The operation a command stands for, or why it is turned away (R104, R114): the host may not drive a step or a
function. -/
def accept (who : Issuer) (c : Command) : Except Reason Instr :=
  match decode c with
  | .error _ => .error .reservedOp
  | .ok i => if who = .host ∧ i.kind ≠ .host then .error .notHostOp else .ok i

/-- What the block runs next: the command on the sequencer's step wires where there is one, else the host's first command,
else nothing (R30, R74; log entries 1, 2). -/
def nextCommand (s : State) : Option (Except Reason Instr) :=
  match s.driven with
  | some c => some (accept .sequencer c)
  | none => s.pending.head?.map (accept .host)

/-- The state once that command has been taken. The step wires are at rest then, so no operation but `ENCODE` ever composes
two steps (R171). -/
def takeCommand (s : State) : State :=
  match s.driven with
  | some _ => { s with driven := none }
  | none => { s with pending := s.pending.tail }

/-- Present the table's word `w` as the very next command, to the one who may drive it (R111). -/
def presentTableWord (s : State) (w : Nat) : State :=
  match tableIssuer w with
  | .sequencer => { s with driven := some (tableCommand w) }
  | .host => { s with driven := none, pending := tableCommand w :: s.pending }

end Sys2Proof.Machine
end

