-- ==== Sys2Proof/Machine/Accumulator.lean ====
section
/-! DEFINITION. The meanings of `PUSH` and `FINALIZE` (43_pcm_accumulator_serializer.md R210, R213). -/

namespace Sys2Proof.Machine

/-- `PUSH seq` (R210). -/
def execPush (seq : List Byte) (s : State) : Host.Outcome State Fault Refusal := operate (pushSamples seq) s

/-- `OUT <- container(BUF); FINAL <- 1` (R213). -/
def serialize (s : State) : State := setFinal (writeOut s)

/-- `FINALIZE` (R213): at any `LEN`, in `IDLE` or `DONE`, and repeatable (R218). -/
def execFinalize (s : State) : Host.Outcome State Fault Refusal := operate (fun s => .completed (serialize s)) s

end Sys2Proof.Machine
end

