-- ==== Sys2Proof/Machine/Checksum.lean ====
section
/-! DEFINITION. The meanings of the checksum engine's functions `PAGE`, `HCSUM` and `BCSUM` (42 R177, R179, R180), each
writing the register its value goes to (10_state.md R20; log entry 11). -/

namespace Sys2Proof.Machine

/-- `PAGE <- page(b)` (R179): no value for `b` of 16 or more, which is refused (U2). -/
def runPage (b : Nat) (s : State) : Run :=
  if h : b < 16 then .completed (writePage (pageNumber ⟨b, h⟩) s)
  else .refused .outOfDomain s

/-- `CSUM <- HCSUM` (R177) over the header register file; while that holds no value, over a free value (log entry 7). -/
def runHcsum (s : State) : Run :=
  match s.hdr with
  | some h => .completed (writeCsum (headerChecksum h) s)
  | none => .completed (writeCsum (headerChecksum (freeHeader s.freeIx)) (nextFree s))

/-- `CSUM <- bcsum(page, data)` (R180). -/
def runBcsum (page : Byte) (data : Vector Byte 256) (s : State) : Run :=
  .completed (writeCsum (blockChecksum page data.toList) s)

/-- `PAGE b` (R179). -/
def execPage (b : Nat) (s : State) : Host.Outcome State Fault Refusal := operate (runPage b) s

/-- `HCSUM` (R177). -/
def execHcsum (s : State) : Host.Outcome State Fault Refusal := operate runHcsum s

/-- `BCSUM page, data` (R180). -/
def execBcsum (page : Byte) (data : Vector Byte 256) (s : State) : Host.Outcome State Fault Refusal :=
  operate (runBcsum page data) s

end Sys2Proof.Machine
end

