-- ==== Sys2Proof/Machine/Control.lean ====
section
/-! DEFINITION. The meaning of `RESET` (70_reset_and_hazards.md R270). -/

namespace Sys2Proof.Machine

/-- `RESET` (R270): never refused, accepted in `PHASE = FAULT` and after a refusal. -/
def execReset (s : State) : Host.Outcome State Fault Refusal := .next (resetState s)

end Sys2Proof.Machine
end

