-- ==== Sys2Proof/Machine/Frame.lean ====
section
/-! DEFINITION. The meanings of `ENCODE` and its five steps (42_tape_frame_builder.md R170 to R182). -/

namespace Sys2Proof.Machine

/-- Step 1 (R174): 86 full cycles of the start tone. `TABLE[START]` without a value cannot be read (R39). DESIGN CHOICE (log
entry 10): R174 lists no checks, so where the table has no value and `FINAL` = 1 too nothing says which reason is told; the
table is read before the sink is written, so `TableInvalid` is. -/
def runStone (s : State) : Run :=
  match s.table .start with
  | some tone => repeatRun (pushSamples tone) startCycles s
  | none => .refused .tableInvalid s

/-- Step 2 (R175): the calibration run, then the sync byte. -/
def runCalib (s : State) : Run :=
  (sendDuration Config.cfg.calibByte Config.cfg.headerSeconds s).andThen (sendByte Config.cfg.syncByte)

/-- Step 3 (R176): fill `HDR` and `CSUM`, emit the five records, send the eight bytes. -/
def runHeader (image : Image) (s : State) : Run :=
  let h := headerOf image
  sendBytes (headerBytes h) (emitDiag (headerDiag h) (writeCsum h.checksum (writeHdr h s)))

/-- Step 4 for block `b` (R178): page and checksum first, the record, then the bytes; last `BLK <- b + 1`. -/
def sendBlock (image : Image) (b : Fin 16) (s : State) : Run :=
  let p := pageNumber b
  let c := blockChecksum p (blockData image b)
  (sendBytes (blockRecord image b) (emitDiag [.blockChecksum b c] (writeCsum c (writePage p s)))).andThen
    fun s => .completed (writeBlk (b.val + 1) s)

/-- Step 4 (R178) for the block `BLK` names; `page(b)` has no value for `b` of 16 or more (R179, U2). -/
def runBlock (image : Image) (s : State) : Run :=
  if h : s.blk.toNat < 16 then sendBlock image ⟨s.blk.toNat, h⟩ s
  else .refused .outOfDomain s

/-- Step 5 (R181). -/
def runTrailer (s : State) : Run := sendDuration Config.cfg.trailerByte Config.cfg.endSeconds s

/-- The part of `ENCODE` after its length check (R170), in the fixed order of R171. -/
def runConversion (image : Image) (s : State) : Run :=
  (runStone (synthesize .one (synthesize .zero (synthesize .start s)))).andThen fun s =>
  (runCalib s).andThen fun s =>
  (runHeader image s).andThen fun s =>
  (repeatRun (runBlock image) Config.blockCount (writeBlk 0 s)).andThen fun s =>
  (runTrailer s).andThen fun s =>
  .completed (setDone s)

/-- `ENCODE rom` (R170): its refusals, then the length test, then the conversion. -/
def runEncode (rom : List Byte) (s : State) : Run :=
  if s.phase = .done then .refused .alreadyEncoded s
  else if s.final then .refused .bufferFinal s
  else if h : rom.length = 4096 then runConversion ⟨⟨rom⟩, h⟩ s
  else .completed (takeRomSizeFault rom.length s)

/-- `ENCODE rom` (R170). -/
def execEncode (rom : List Byte) (s : State) : Host.Outcome State Fault Refusal := operate (runEncode rom) s

/-- `STONE` (R174). -/
def execStone (s : State) : Host.Outcome State Fault Refusal := operate runStone s

/-- `CALIB` (R175). -/
def execCalib (s : State) : Host.Outcome State Fault Refusal := operate runCalib s

/-- `HEADER` (R176). -/
def execHeader (image : Image) (s : State) : Host.Outcome State Fault Refusal := operate (runHeader image) s

/-- `BLOCK` (R178). -/
def execBlock (image : Image) (s : State) : Host.Outcome State Fault Refusal := operate (runBlock image) s

/-- `TRAILER` (R181). -/
def execTrailer (s : State) : Host.Outcome State Fault Refusal := operate runTrailer s

end Sys2Proof.Machine
end

