-- ==== Sys2Proof/Machine/Mapper.lean ====
section
/-! DEFINITION. The meanings of `WBYTE` and `WDUR` (41_bit_to_tone_mapper.md R151, R154). -/

namespace Sys2Proof.Machine

/-- `WBYTE b` (R151). -/
def execWbyte (b : Byte) (s : State) : Host.Outcome State Fault Refusal := operate (sendByte b) s

/-- `WDUR b, d` (R154). -/
def execWdur (b : Byte) (d : Ratio) (s : State) : Host.Outcome State Fault Refusal := operate (sendDuration b d) s

end Sys2Proof.Machine
end

