-- ==== Sys2Proof/Machine/ToneSynth.lean ====
section
/-! DEFINITION. The meaning of `SYNTH` (40_tone_synthesizer.md R130). -/

namespace Sys2Proof.Machine

/-- `SYNTH t` (R130): allowed on a finalized buffer too, which it does not touch. -/
def execSynth (t : Tone) (s : State) : Host.Outcome State Fault Refusal :=
  operate (fun s => .completed (synthesize t s)) s

end Sys2Proof.Machine
end

