-- ==== Sys2Proof/Machine/Dispatch.lean ====
section
/-! DEFINITION. One arm per operation of spec/opcode_table.json, in the table's order. -/

namespace Sys2Proof.Machine

def exec (i : Instr) (s : State) : Host.Outcome State Fault Refusal :=
  match i with
  | .reset => Sys2Proof.Machine.execReset s
  | .synth t => Sys2Proof.Machine.execSynth t s
  | .wbyte b => Sys2Proof.Machine.execWbyte b s
  | .wdur b d => Sys2Proof.Machine.execWdur b d s
  | .push seq => Sys2Proof.Machine.execPush seq s
  | .finalize => Sys2Proof.Machine.execFinalize s
  | .encode rom => Sys2Proof.Machine.execEncode rom s
  | .stone => Sys2Proof.Machine.execStone s
  | .calib => Sys2Proof.Machine.execCalib s
  | .header image => Sys2Proof.Machine.execHeader image s
  | .block image => Sys2Proof.Machine.execBlock image s
  | .trailer => Sys2Proof.Machine.execTrailer s
  | .page b => Sys2Proof.Machine.execPage b s
  | .hcsum => Sys2Proof.Machine.execHcsum s
  | .bcsum page data => Sys2Proof.Machine.execBcsum page data s

end Sys2Proof.Machine
end

