-- ==== Sys2Proof/Machine/Step.lean ====
section
/-! DEFINITION. One step of the machine: take the next command and run it (10_state.md R28, R30: no
program counter, one atomic operation at a time; R262, R272: with no command the block holds its state). -/

namespace Sys2Proof.Machine

/-- One step. -/
def step (s : State) : Host.Outcome State Fault Refusal :=
  match nextCommand s with
  | none => .next s
  | some (.ok i) => exec i (takeCommand s)
  | some (.error r) => refuseCommand r (takeCommand s)

/-- `s` with the table's word `w` presented as the very next command (log entries 1, 2). The table gives every row 4 bits, so
the number of bits does not matter. -/
def State.withFetchWord (s : State) (_nbits w : Nat) : State := presentTableWord s w

end Sys2Proof.Machine
end

