-- ==== Sys2Proof/Safety.lean ====
section
/-! DEFINITION. What counts as a safe state and a finished run, and the streams of one conversion as closed forms
(30_encoding.md R91 to R99), in the terms claims use. -/

namespace Sys2Proof.Machine

/-- The samples of a byte, given the two tables: eight symbols, bit 7 first (R91, R92). -/
def symbols (zero one : List Byte) (b : Byte) : List Byte :=
  (bitsMsbFirst b).flatMap fun bit => if bit then one else zero

/-- `sym(t)` of R99: the samples of a byte with the preset tables. -/
def byteSymbols (b : Byte) : List Byte := symbols (toneValues .zero) (toneValues .one) b

/-- The sixteen data block records in ascending order (R96). -/
def blockRecords (image : Image) : List Byte := (List.finRange 16).flatMap (blockRecord image)

/-- The tape byte stream `T` of one conversion (R98). -/
def tapeBytes (image : Image) : List Byte :=
  List.replicate 344 0x55 ++ [0x54] ++ headerBytes (headerOf image) ++ blockRecords image ++ List.replicate 344 0x00

/-- The sample stream `S` of one conversion (R99). -/
def sampleStream (image : Image) : List Byte :=
  (List.replicate 86 (toneValues .start)).flatten ++ (tapeBytes image).flatMap byteSymbols

/-- The diagnostic record of block `b` (R256). -/
def blockDiag (image : Image) (b : Fin 16) : DiagRecord :=
  .blockChecksum b (blockChecksum (pageNumber b) (blockData image b))

/-- The 21 diagnostic records of one conversion, in order (R256). -/
def conversionDiag (image : Image) : List DiagRecord :=
  headerDiag (headerOf image) ++ (List.finRange 16).map (blockDiag image)

/-- The image of a byte sequence of the right length. -/
def imageOf (rom : List Byte) (h : rom.length = 4096) : Image := ⟨⟨rom⟩, h⟩

/-- Two commands agree on the operand ports operation `i` uses (R113). -/
def samePorts (i : Instr) (c d : Command) : Prop :=
  match i with
  | .reset => True
  | .synth _ => c.tone = d.tone
  | .wbyte _ => c.byte = d.byte
  | .wdur _ _ => c.byte = d.byte ∧ c.duration = d.duration
  | .push _ => c.seq = d.seq
  | .finalize => True
  | .encode _ => c.rom = d.rom
  | .stone => True
  | .calib => True
  | .header _ => c.image = d.image
  | .block _ => c.image = d.image
  | .trailer => True
  | .page _ => c.index = d.index
  | .hcsum => True
  | .bcsum _ _ => c.page = d.page ∧ c.data = d.data

/-- An operation may run: no refusal since `RESET`, and no fault (R244, R245). -/
def State.ready (s : State) : Prop := s.refused = false ∧ s.phase ≠ .fault

/-- `WBYTE`, and what sends through it, is refused with reason `r` before a sample goes out (R151, in the order of its
checks). -/
def State.sendRefused (s : State) (r : Reason) : Prop :=
  (s.final = true ∧ r = .bufferFinal)
    ∨ (s.final = false ∧ (s.tableZero = none ∨ s.tableOne = none) ∧ r = .tableInvalid)

/-- The sink writes of a byte sequence, one for each bit (R120, R151). -/
def symbolWrites (zero one : List Byte) (bytes : List Byte) : List (List Byte) :=
  (bytes.flatMap bitsMsbFirst).map fun bit => if bit then one else zero

/-- The samples of the longest run of whole writes that fits into `room` bytes: what goes out before the sink refuses a
write with `BufferFull` (R210, R219). -/
def fitting (room : Nat) : List (List Byte) → List Byte
  | [] => []
  | w :: ws => if w.length ≤ room then w ++ fitting (room - w.length) ws else []

/-- The state after sink writes `ws` of which the first that would pass `LEN_MAX` is refused (R219); the writes before it
stay (log entries 3, 9, 25). -/
def State.filledUp (s : State) (ws : List (List Byte)) : State :=
  setRefused .bufferFull (bufAppend s (fitting (Config.lenMax - s.len) ws))

/-- Operations issued one after another, as far as each gives a next state. -/
def execAll : List Instr → State → Host.Outcome State Fault Refusal
  | [], s => .next s
  | i :: is, s =>
    match exec i s with
    | .next t => execAll is t
    | .fault f => .fault f
    | .refused r => .refused r

/-- A finished run (R277): `PHASE = DONE`, `FINAL` = 1, and nothing refused. -/
def State.finished (s : State) : Prop := s.phase = .done ∧ s.final = true ∧ s.refused = false

/-- What `HEADER` makes of the header register file (R21, R95, R186): the constants of `CFG`, and eight bytes whose sum is
0x55 mod 256. -/
def headerValid (h : HeaderRecord) : Prop :=
  h.bankConfig = 0x1d ∧ h.blockCount = 0x10 ∧ h.multiload = 0x00 ∧ h.progressSpeedLow = 0xc3
    ∧ h.progressSpeedHigh = 0x01 ∧ byteSum (headerBytes h) = 0x55

/-- The states of the machine that make sense on this hardware; every run from reset stays in them. -/
structure State.Inv (s : State) : Prop where
  /-- `LEN` never passes `LEN_MAX` (R219). -/
  len_le : s.len ≤ Config.lenMax
  /-- A valid table holds its preset (R38). -/
  tableStart_preset : ∀ v, s.tableStart = some v → v = startTableValues
  tableZero_preset : ∀ v, s.tableZero = some v → v = zeroTableValues
  tableOne_preset : ∀ v, s.tableOne = some v → v = oneTableValues
  /-- The header register file holds what `HEADER` makes of it (R21, R186). -/
  hdr_valid : ∀ h, s.hdr = some h → headerValid h
  /-- `BLK` is 0 to 16 (R20, R22). -/
  blk_le : s.blk.toNat ≤ 16
  /-- `PAGE` holds the page of some block (R23). -/
  page_valid : ∀ p, s.page = some p → ∃ b, p = pageNumber b
  /-- `OUT` holds the container of `BUF` once the buffer is finalized, and no value before (R43, R217). -/
  out_eq : s.out = if s.final then some (container s.buf) else none
  /-- After a conversion all tables are valid, the header was sent and all 16 blocks went out (R22, R170). -/
  done_complete : s.phase = .done → (∀ t, s.tvalid t = true) ∧ s.hdr.isSome = true ∧ s.blk = 16
  /-- The fault happens before the buffer is finalized, and nothing is finalized after it (R240, R251). -/
  fault_open : s.phase = .fault → s.final = false
  /-- The host has been told of a fault or refusal exactly where there was one (log entry 5). -/
  report_none : s.report = none ↔ s.refused = false ∧ s.phase ≠ .fault

end Sys2Proof.Machine
end

