-- ==== Sys2Proof/Certificates/Slice0/Obligations.lean ====
section
/-! DEFINITION. The statements for the provers, from the numbered rules of spec/. An operation that completes is stated by
the next state it gives, so the statement is its frame too; where it is refused part-way, a frame statement covers it. -/

open Sys2Proof Sys2Proof.Machine

/-! ## The command interface -/

/-- A few selector words written out from the operation map (30_encoding.md section 3), one or more of each family; the
codes are the spec's decision D8. -/
def Obligations.SelectorWordsDecode : Prop :=
  decode { op := 0b0000 } = .ok .reset
    ∧ decode { op := 0b0001, tone := 0b10 } = .ok (.synth .one)
    ∧ decode { op := 0b0001, tone := 0b11 } = .error .reservedTone
    ∧ decode { op := 0b0010, byte := 0x54 } = .ok (.wbyte 0x54)
    ∧ decode { op := 0b0100, seq := [0x80, 0xed] } = .ok (.push [0x80, 0xed])
    ∧ decode { op := 0b0110 } = .ok (.encode [])
    ∧ decode { op := 0b0111 } = .ok .stone
    ∧ decode { op := 0b1100, index := 7 } = .ok (.page 7)
    ∧ decode { op := 0b1111 } = .error .reservedSelector

/-- DECODE AND ENCODE AGREE, for every operation with every operand: decoding an encoded operation gives it back and it
is accepted from the one who may drive it; and two commands decode to one operation exactly where they agree on the
selector and on the operand ports that operation uses, so no bit of an encoding is dropped and no other port is read
(decision D8 of the spec fixes the codes). -/
def Obligations.DecodeEncodeAgree : Prop :=
  (∀ i : Instr, decode (encode i) = .ok i ∧ accept i.kind.issuer (encode i) = .ok i)
  ∧ ∀ (c d : Command) (i : Instr), decode c = .ok i → (decode d = .ok i ↔ c.op = d.op ∧ samePorts i c d)

/-- Exactly selector 0xf, and tone code 3 on `SYNTH`, are rejected (decision D8 fixes the codes). -/
def Obligations.OnlyReservedCodesRejected : Prop :=
  ∀ c : Command, (∃ e, decode c = .error e) ↔ c.op = 0xf ∨ (c.op = 0x1 ∧ c.tone = 3)

/-- A step runs the decoded operation, on the state with the command taken: the host's first command where the step wires
are at rest (the list of pending commands is the model's, log entry 1), and whatever stands on the sequencer's step wires
(log entry 2). -/
def Obligations.StepRunsTheDecodedOperation : Prop :=
  ∀ (s : State) (c : Command) (i : Instr), decode c = .ok i →
    (∀ rest, s.driven = none → s.pending = c :: rest → i.kind = .host → step s = exec i { s with pending := rest })
    ∧ (s.driven = some c → step s = exec i { s with driven := none })

/-- With no command presented and the step wires at rest the block holds its state (that commands are presented in a
list is log entry 1, the step wires are log entry 2). -/
def Obligations.IdleBlockHoldsItsState : Prop :=
  ∀ s : State, s.driven = none → s.pending = [] → step s = .next s

/-- The interface turns a reserved code away with `ReservedOp`, and a step or function selector from the host with
`NotHostOp`; nothing changes but `REFUSED` and the reason told (decisions D8, D13; that a refusal is a next state is log
entry 3, that these checks come before an operation's own is log entry 13). -/
def Obligations.InterfaceTurnsCommandsAway : Prop :=
  ∀ (s : State) (c : Command) (rest : List Command), s.driven = none → s.pending = c :: rest → s.refused = false →
    ((c.op = 0xf ∨ (c.op = 0x1 ∧ c.tone = 3)) →
      step s = .next { s with pending := rest, refused := true, report := some (.refusal .reservedOp) })
    ∧ ((0x7 ≤ c.op ∧ c.op ≤ 0xe) →
      step s = .next { s with pending := rest, refused := true, report := some (.refusal .notHostOp) })

/-! ## Reset -/

/-- What reset leaves, field by field (decision D20 of the spec gives these values). The last three fields are the
model's own: the reason told (log entry 5), the pending commands (log entry 1), the step wires (log entry 2). Of the
free-value counter, the model's own too (log entry 7), nothing is claimed. -/
def Obligations.ResetStateFields : Prop :=
  State.reset.phase = .idle ∧ State.reset.phase.code = 0 ∧ State.reset.final = false ∧ State.reset.refused = false
    ∧ (∀ t, State.reset.tvalid t = false) ∧ (∀ t, State.reset.table t = none)
    ∧ State.reset.hdr = none ∧ State.reset.page = none ∧ State.reset.csum = none ∧ State.reset.blk = 0
    ∧ State.reset.buf = [] ∧ State.reset.len = 0 ∧ State.reset.out = none ∧ State.reset.diag = []
    ∧ State.reset.report = none ∧ State.reset.pending = [] ∧ State.reset.driven = none

/-- `RESET` completes in every state, after a fault and after a refusal too, and leaves every piece of the block's state
at its reset value (decision D20). Of the model's own fields the reason told and the step wires are cleared (log entries
5, 2), the commands still to come stay (log entry 1), and so does the free-value counter (log entry 7). -/
def Obligations.ResetCompletesEverywhere : Prop :=
  ∀ s : State, exec .reset s = .next { State.reset with pending := s.pending, freeIx := s.freeIx }

/-! ## Tone synthesizer -/

/-- `SYNTH t` completes, finalized or not, and writes `TABLE[t]` and nothing else (decisions D8, D21 of the spec name the
operation and its valid bit). -/
def Obligations.SynthFillsItsTable : Prop :=
  ∀ s : State, s.ready →
    exec (.synth .start) s = .next { s with tableStart := some startTableValues }
    ∧ exec (.synth .zero) s = .next { s with tableZero := some zeroTableValues }
    ∧ exec (.synth .one) s = .next { s with tableOne := some oneTableValues }

/-- Every entry of the three tables is the sine formula of R131 rounded half up: entry `i` of a table of `n` samples is
`round((sin(2π·i/n)·v + 1) × 128)`. -/
def Obligations.TablesRoundTheSine : Prop :=
  ∀ t : Tone, (toneValues t).length = toneCycle t ∧
    ∀ (i : ℕ) (h : i < (toneValues t).length),
      (((toneValues t)[i].toNat : ℤ)) =
        ⌊(Real.sin (2 * Real.pi * (i : ℝ) / (toneCycle t : ℝ))
            * (((toneVolume t).num : ℝ) / ((toneVolume t).den : ℝ)) + 1) * 128 + 1 / 2⌋

/-- The laws of R136 (which the spec derives from the table values): entry 0 is mid-scale, opposite entries add to 256,
the sum is 128 times the length, no entry clips. -/
def Obligations.TablesAreBalanced : Prop :=
  ∀ t : Tone, (toneValues t)[0]? = some 128
    ∧ (∀ i < (toneValues t).length, 0 < i →
        ((toneValues t).getD i 0).toNat + ((toneValues t).getD ((toneValues t).length - i) 0).toNat = 256)
    ∧ ((toneValues t).map BitVec.toNat).sum = 128 * (toneValues t).length
    ∧ ∀ x ∈ toneValues t, 3 ≤ x.toNat ∧ x.toNat ≤ 253

/-! ## Bit-to-tone mapper -/

/-- `WBYTE b` with both tables valid, on an open buffer with room, completes: one full copy of `TABLE[ONE]` for a 1 bit
and of `TABLE[ZERO]` for a 0 bit, bit 7 first, and nothing but `BUF` changes. With the preset tables the two symbols are
those R91 lists, each starting at mid-scale. -/
def Obligations.WbyteSendsEightSymbols : Prop :=
  (∀ (s : State) (b : Byte) (zero : Vector Byte 6) (one : Vector Byte 10), s.ready → s.final = false →
    s.tableZero = some zero → s.tableOne = some one → s.len + 80 ≤ Config.lenMax →
    exec (.wbyte b) s = .next { s with
      buf := s.buf ++ [7, 6, 5, 4, 3, 2, 1, 0].flatMap fun k => if b.getLsbD k then one.toList else zero.toList })
  ∧ toneValues .zero = [128, 237, 237, 128, 19, 19]
  ∧ toneValues .one = [128, 202, 247, 247, 202, 128, 54, 9, 9, 54]

/-- The length law `48 + 4 × popcount(b)` (R92, which the spec derives): what a completed `WBYTE` adds to `LEN`. -/
def Obligations.WbyteLengthLaw : Prop :=
  ∀ (s t : State) (b : Byte), exec (.wbyte b) s = .next t → t.refused = false → t.len = s.len + 48 + 4 * popcount b

/-- When `WBYTE` is refused: on a finalized buffer or with a table missing, `BUF` stays as it was; where its symbols
would pass `LEN_MAX`, the symbols that fit stay and the first that does not is refused with `BufferFull` (decisions D13,
D17, D19, D21; what a refusal leaves is log entry 3, what a part-way one leaves is log entries 9 and 25). -/
def Obligations.WbyteRefusals : Prop :=
  ∀ (s : State) (b : Byte), s.ready →
    (s.final = true →
      exec (.wbyte b) s = .next { s with refused := true, report := some (.refusal .bufferFinal) })
    ∧ (s.final = false → (s.tableZero = none ∨ s.tableOne = none) →
      exec (.wbyte b) s = .next { s with refused := true, report := some (.refusal .tableInvalid) })
    ∧ (∀ (zero : Vector Byte 6) (one : Vector Byte 10), s.final = false → s.tableZero = some zero →
      s.tableOne = some one → s.len ≤ Config.lenMax → Config.lenMax < s.len + 48 + 4 * popcount b →
      exec (.wbyte b) s = .next (s.filledUp (symbolWrites zero.toList one.toList [b])))

/-- The repeat count is `floor(d × 11025/16)` for a non-negative rational `d` (exact division is the spec's decision
D5). -/
def Obligations.RepeatCountIsFloor : Prop :=
  ∀ d : Ratio, d.den ≠ 0 → 0 ≤ d.num → (repeatCount d : ℤ) = ⌊((d.num : ℚ) / (d.den : ℚ)) * (11025 / 16)⌋

/-- `WDUR b, d` with a non-negative `d`, tables valid, on an open buffer with room, completes and appends the symbols of
`b` exactly `count(d)` times (decision D5 fixes the count). -/
def Obligations.WdurRepeatsTheByte : Prop :=
  ∀ (s : State) (b : Byte) (d : Ratio) (zero : Vector Byte 6) (one : Vector Byte 10), s.ready → s.final = false →
    s.tableZero = some zero → s.tableOne = some one → d.den ≠ 0 → 0 ≤ d.num →
    s.len + 80 * repeatCount d ≤ Config.lenMax →
    exec (.wdur b d) s = .next { s with
      buf := s.buf ++ (List.replicate (repeatCount d) (symbols zero.toList one.toList b)).flatten }

/-- A count of 0 appends nothing and refuses nothing, finalized or not, tables valid or not (R154's corner case, after
"`writeByteDuration(b, 0)` appends zero samples (idempotent no-op)"; every duration under 16/11025 s counts 0). -/
def Obligations.WdurOfCountZeroChangesNothing : Prop :=
  ∀ (s : State) (b : Byte) (d : Ratio), s.ready → d.den ≠ 0 → 0 ≤ d.num → 11025 * d.num < 16 * (d.den : ℤ) →
    exec (.wdur b d) s = .next s

/-- A duration that is negative, or no number, is refused with `BadOperand` (decision D7, U4; log entries 3 and 14). -/
def Obligations.WdurRefusesBadDurations : Prop :=
  ∀ (s : State) (b : Byte) (d : Ratio), s.ready → (d.den = 0 ∨ d.num < 0) →
    exec (.wdur b d) s = .next { s with refused := true, report := some (.refusal .badOperand) }

/-! ## Accumulator and serializer -/

/-- `PUSH seq` on an open buffer with room completes: the samples go behind what `BUF` holds, in order, each once since
there is one channel, `LEN` grows by their number, and every byte already there stays where it is. -/
def Obligations.PushAppendsTheSamples : Prop :=
  ∀ (s : State) (seq : List Byte), s.ready → s.final = false → s.len + seq.length ≤ Config.lenMax →
    ∃ t, exec (.push seq) s = .next t ∧ t = { s with buf := s.buf ++ seq } ∧ t.len = s.len + seq.length * 1
      ∧ ∀ a < s.len, t.bufRead a = s.bufRead a

/-- When `PUSH` is refused: on a finalized buffer, and where `LEN` would pass 2^32 − 37 (decisions D17, D19; log entry
3). -/
def Obligations.PushRefusals : Prop :=
  ∀ (s : State) (seq : List Byte), s.ready →
    (s.final = true →
      exec (.push seq) s = .next { s with refused := true, report := some (.refusal .bufferFinal) })
    ∧ (s.final = false → 2 ^ 32 - 37 < s.len + seq.length →
      exec (.push seq) s = .next { s with refused := true, report := some (.refusal .bufferFull) })

/-- `FINALIZE` completes in `IDLE` and `DONE`, at any `LEN`, finalized or not: `OUT` is the container of `BUF`, `FINAL`
is 1, nothing else changes (decisions D17, D18). -/
def Obligations.FinalizeSerializesTheBuffer : Prop :=
  ∀ s : State, s.ready → exec .finalize s = .next { s with out := some (container s.buf), final := true }

/-- A second `FINALIZE` changes nothing (decision D17). -/
def Obligations.FinalizeAgainChangesNothing : Prop :=
  ∀ s t : State, s.ready → exec .finalize s = .next t → exec .finalize t = .next t

/-- The container byte by byte (decision D16; the tags' codes and the widths are general knowledge, GK1 and GK2, log entry
18): bytes 8 to 39 are the same for every buffer, the two size fields read back, low byte first, as 36 + `LEN` and `LEN`,
and the rest is `BUF` unchanged. -/
def Obligations.ContainerLayout : Prop :=
  ∀ buf : List Byte, buf.length ≤ Config.lenMax →
    ((container buf).drop 44 = buf) ∧ (container buf).length = Config.containerHeaderBytes + buf.length
    ∧ (container buf).take 4 = [0x52, 0x49, 0x46, 0x46]
    ∧ ((container buf).drop 8).take 32 =
        [0x57, 0x41, 0x56, 0x45, 0x66, 0x6d, 0x74, 0x20, 0x10, 0x00, 0x00, 0x00, 0x01, 0x00, 0x01, 0x00,
         0x44, 0xac, 0x00, 0x00, 0x44, 0xac, 0x00, 0x00, 0x01, 0x00, 0x08, 0x00, 0x64, 0x61, 0x74, 0x61]
    ∧ Nat.ofDigits 256 ((((container buf).drop 4).take 4).map BitVec.toNat) = 36 + buf.length
    ∧ Nat.ofDigits 256 ((((container buf).drop 40).take 4).map BitVec.toNat) = buf.length

/-! ## Checksum engine -/

/-- The header checksum (R177), selector 0xd, function only: 0x55 less the seven other bytes mod 256, so that the eight
bytes sum to 0x55 mod 256, for any values of the other seven; with the five constants in place it is 0x64 less the two
address bytes mod 256. -/
def Obligations.HeaderChecksumLaw : Prop :=
  encode .hcsum = { op := 0xd } ∧ Instr.hcsum.kind = .function ∧ ∀ h : HeaderRecord,
    ((headerChecksum h).toNat : ℤ) =
      (0x55 - h.addressLow.toNat - h.addressHigh.toNat - h.bankConfig.toNat - h.blockCount.toNat - h.multiload.toNat
        - h.progressSpeedLow.toNat - h.progressSpeedHigh.toNat) % 256
    ∧ ((headerBytes { h with checksum := headerChecksum h }).map BitVec.toNat).sum % 256 = 0x55
    ∧ (h.bankConfig = 0x1d → h.blockCount = 0x10 → h.multiload = 0x00 → h.progressSpeedLow = 0xc3 →
        h.progressSpeedHigh = 0x01 →
        ((headerChecksum h).toNat : ℤ) = (0x64 - h.addressLow.toNat - h.addressHigh.toNat) % 256)

/-- `HCSUM` completes and writes `CSUM` alone: the checksum of `HDR` where it holds a value (that the function's value
goes to `CSUM` is log entry 11); while `HDR` holds no value, `CSUM` gets some value, any (log entry 7). -/
def Obligations.HcsumWritesCsum : Prop :=
  ∀ s : State, s.ready →
    (∀ h, s.hdr = some h → exec .hcsum s = .next { s with csum := some (headerChecksum h) })
    ∧ (s.hdr = none → ∃ v, exec .hcsum s = .next { s with csum := some v, freeIx := s.freeIx + 1 })

/-- The page number of every block (R23): `b × 4 + 1`, less 0x1f once if that exceeds 0x1f, a value from 1 to 30; and no
two blocks share one. -/
def Obligations.PageNumberLaw : Prop :=
  (∀ b : Fin 16, (pageNumber b).toNat = (if b.val * 4 + 1 > 0x1f then b.val * 4 + 1 - 0x1f else b.val * 4 + 1)
      ∧ 1 ≤ (pageNumber b).toNat ∧ (pageNumber b).toNat ≤ 30)
    ∧ Function.Injective pageNumber

/-- `PAGE b` completes for `b` of 0 to 15 and writes the register `PAGE` (log entry 11); from 16 up it has no value and is
refused with `OutOfDomain` (decision D22, U2; log entry 3). -/
def Obligations.PageWritesThePageRegister : Prop :=
  ∀ (s : State) (b : ℕ), s.ready →
    (∀ h : b < 16, exec (.page b) s = .next { s with page := some (pageNumber ⟨b, h⟩) })
    ∧ (16 ≤ b → exec (.page b) s = .next { s with refused := true, report := some (.refusal .outOfDomain) })

/-- The block checksum (R180), selector 0xe, function only: 0x55 less the page and the sum of the data, all mod 256, so
that page, checksum and data sum to 0x55 mod 256; an all-zero block and an all-0xff block have checksum 0x55 less the
page, and a block that holds each byte value once has data sum 0x80 mod 256. -/
def Obligations.BlockChecksumLaw : Prop :=
  (∀ page data, encode (.bcsum page data) = { op := 0xe, page := page, data := data }
    ∧ (Instr.bcsum page data).kind = .function)
  ∧ ∀ (page : Byte) (data : Vector Byte 256),
    ((blockChecksum page data.toList).toNat : ℤ)
      = (0x55 - page.toNat - ((data.toList.map BitVec.toNat).sum : ℤ)) % 256
    ∧ (page.toNat + (data.toList.map BitVec.toNat).sum + (blockChecksum page data.toList).toNat) % 256 = 0x55
    ∧ (((∀ j : Fin 256, data[j] = 0x00) ∨ (∀ j : Fin 256, data[j] = 0xff)) →
        blockChecksum page data.toList = 0x55 - page)
    ∧ ((∀ v : Byte, v ∈ data.toList) → blockChecksum page data.toList = 0x55 - page - 0x80)

/-- `BCSUM page, data` completes and writes `CSUM` alone (that the function's value goes to `CSUM` is log entry 11). -/
def Obligations.BcsumWritesCsum : Prop :=
  ∀ (s : State) (page : Byte) (data : Vector Byte 256), s.ready →
    exec (.bcsum page data) s = .next { s with csum := some (blockChecksum page data.toList) }

/-! ## Tape frame builder -/

/-- `STONE` completes: 86 full copies of `TABLE[START]`, 4386 samples, written directly, and nothing but `BUF` changes. -/
def Obligations.StoneSendsTheStartTone : Prop :=
  ∀ (s : State) (tone : Vector Byte 51), s.ready → s.final = false → s.tableStart = some tone →
    s.len + 4386 ≤ Config.lenMax →
    ∃ t, exec .stone s = .next t ∧ t = { s with buf := s.buf ++ (List.replicate 86 tone.toList).flatten }
      ∧ t.len = s.len + 4386

/-- `CALIB` completes: 344 bytes of 0x55, then 0x54 (which differs in bit 0 only), 22076 samples, and nothing but `BUF`
changes. -/
def Obligations.CalibSendsCalibrationAndSync : Prop :=
  (0x55 : Byte) ^^^ 0x54 = 0b00000001 ∧ ∀ (s : State) (zero : Vector Byte 6) (one : Vector Byte 10), s.ready → s.final = false →
    s.tableZero = some zero → s.tableOne = some one → s.len + 22076 ≤ Config.lenMax →
    ∃ t, exec .calib s = .next t
      ∧ t = { s with buf := s.buf ++ (List.replicate 344 (0x55 : Byte) ++ [0x54]).flatMap (symbols zero.toList one.toList) }
      ∧ t.len = s.len + 22076

/-- `TRAILER` completes: 344 bytes of 0x00, each eight zero-tone cycles, 16512 samples, and nothing but `BUF` changes. -/
def Obligations.TrailerSendsZeroTones : Prop :=
  ∀ (s : State) (zero : Vector Byte 6) (one : Vector Byte 10), s.ready → s.final = false →
    s.tableZero = some zero → s.tableOne = some one → s.len + 16512 ≤ Config.lenMax →
    ∃ t, exec .trailer s = .next t
      ∧ t = { s with buf := s.buf ++ (List.replicate (344 * 8) zero.toList).flatten } ∧ t.len = s.len + 16512

/-- The header record of every image, in the exact order it is sent (R95, R105): the address bytes of offsets 4092 and
4093, the constants, the block count 0x10, the checksum fifth, and a sum of 0x55 mod 256. -/
def Obligations.HeaderRecordOfAnImage : Prop :=
  ∀ image : Image, ∃ c : Byte,
    headerBytes (headerOf image) = [image[4092], image[4093], 0x1d, 0x10, c, 0x00, 0xc3, 0x01]
    ∧ (c.toNat : ℤ) = (0x55 - image[4092].toNat - image[4093].toNat - 0x1d - 0x10 - 0x00 - 0xc3 - 0x01) % 256
    ∧ ((headerBytes (headerOf image)).map BitVec.toNat).sum % 256 = 0x55

/-- `HEADER` completes: `HDR` and `CSUM` filled, the five diagnostic records emitted (decisions D14, D30), the eight bytes
sent, and nothing else changes. -/
def Obligations.HeaderFillsAndSends : Prop :=
  ∀ (s : State) (image : Image) (zero : Vector Byte 6) (one : Vector Byte 10), s.ready → s.final = false →
    s.tableZero = some zero → s.tableOne = some one → s.len + 8 * 80 ≤ Config.lenMax →
    exec (.header image) s = .next { s with
      hdr := some (headerOf image)
      csum := some (headerOf image).checksum
      diag := s.diag ++ [.address (image[4093] ++ image[4092]), .bankConfig 0x1d, .blockCount 0x10, .multiload 0x00,
        .loadSpeed 0x01c3]
      buf := s.buf ++ (headerBytes (headerOf image)).flatMap (symbols zero.toList one.toList) }

/-- The record of block `b` (R96, R108): 258 bytes, page, checksum, then the 256 bytes of the image from offset 256 × `b`
in ascending order; all 258 sum to 0x55 mod 256. In the tape byte stream the records follow each other with nothing
between, block 0 first (R98 puts the first at offset 353). -/
def Obligations.BlockRecordOfAnImage : Prop :=
  ∀ (image : Image) (b : Fin 16),
    (blockRecord image b).length = 258
    ∧ (blockRecord image b)[0]? = some (pageNumber b)
    ∧ (blockRecord image b)[1]? = some (blockChecksum (pageNumber b) (blockData image b))
    ∧ (∀ j : Fin 256, (blockRecord image b)[2 + j.val]? = some image[256 * b.val + j.val])
    ∧ ((blockRecord image b).map BitVec.toNat).sum % 256 = 0x55
    ∧ ∀ j < 258, (tapeBytes image)[353 + 258 * b.val + j]? = (blockRecord image b)[j]?

/-- `BLOCK` completes for `BLK` of 0 to 15: `PAGE` and `CSUM` written, one diagnostic record (decision D14), the record
sent, `BLK` one more, and nothing else changes; at `BLK` of 16 and more the page has no value and it is refused (decision
D22, U2; log entry 3). -/
def Obligations.BlockSendsOneRecord : Prop :=
  ∀ (s : State) (image : Image), s.ready →
    (∀ (b : Fin 16) (zero : Vector Byte 6) (one : Vector Byte 10), s.final = false → s.tableZero = some zero →
      s.tableOne = some one → s.blk.toNat = b.val → s.len + 258 * 80 ≤ Config.lenMax →
      exec (.block image) s = .next { s with
        page := some (pageNumber b)
        csum := some (blockChecksum (pageNumber b) (blockData image b))
        diag := s.diag ++ [.blockChecksum b (blockChecksum (pageNumber b) (blockData image b))]
        buf := s.buf ++ (blockRecord image b).flatMap (symbols zero.toList one.toList)
        blk := s.blk + 1 })
    ∧ (16 ≤ s.blk.toNat →
      exec (.block image) s = .next { s with refused := true, report := some (.refusal .outOfDomain) })

/-- The size of the tape byte stream and of the sample stream (R98, R99, which the spec derives). -/
def Obligations.StreamLengths : Prop :=
  ∀ image : Image, (tapeBytes image).length = 4825
    ∧ (sampleStream image).length = 235986 + 4 * ((tapeBytes image).map popcount).sum
    ∧ (sampleStream image).length ≤ 390386

/-- `ENCODE` of an image of 4096 bytes, in `IDLE` on an open buffer with room, completes: the tables hold their
presets, the whole sample stream of R99 goes behind what `BUF` holds, the 21 diagnostic records are emitted, the registers
hold what the last block left, `PHASE` is `DONE`, and nothing else changes. (R190 is the spec's derivation; registers,
phases and record order are its decisions D9, D10, D14.) -/
def Obligations.EncodeSendsTheWholeFrame : Prop :=
  ∀ (s : State) (rom : List Byte) (h : rom.length = 4096), s.refused = false → s.phase = .idle → s.final = false →
    s.len + (sampleStream (imageOf rom h)).length ≤ Config.lenMax →
    exec (.encode rom) s = .next { s with
      tableStart := some startTableValues
      tableZero := some zeroTableValues
      tableOne := some oneTableValues
      hdr := some (headerOf (imageOf rom h))
      page := some 0x1e
      csum := some (blockChecksum 0x1e (blockData (imageOf rom h) 15))
      diag := s.diag ++ conversionDiag (imageOf rom h)
      buf := s.buf ++ sampleStream (imageOf rom h)
      blk := 16
      phase := .done }

/-- TAKING THE FAULT. `ENCODE` of an image of any other length, shorter or longer, in `IDLE` on an open buffer: `PHASE`
becomes `FAULT`, the length is told to the host, and nothing else changes: no sample, no record, no table (decision D12; a
next state by log entry 4). -/
def Obligations.WrongSizedImageFaults : Prop :=
  ∀ (s : State) (rom : List Byte), s.refused = false → s.phase = .idle → s.final = false → rom.length ≠ 4096 →
    exec (.encode rom) s = .next { s with phase := .fault, report := some (.romSizeFault rom.length) }

/-- The refusals of `ENCODE`, in the order of R248, before the length is looked at (decisions D13, D29; log entry 3). -/
def Obligations.EncodeRefusalsComeFirst : Prop :=
  ∀ (s : State) (rom : List Byte), s.refused = false →
    (s.phase = .fault → exec (.encode rom) s = .next { s with refused := true, report := some (.refusal .faulted) })
    ∧ (s.phase = .done →
      exec (.encode rom) s = .next { s with refused := true, report := some (.refusal .alreadyEncoded) })
    ∧ (s.phase = .idle → s.final = true →
      exec (.encode rom) s = .next { s with refused := true, report := some (.refusal .bufferFinal) })

/-- A whole conversion: from `IDLE` with an empty open buffer, `ENCODE` of a 4096-byte image and then `FINALIZE`
complete, the run is over (R277), and `OUT` is the container of the sample stream, a function of the image alone (R190;
the container is decision D16). -/
def Obligations.ConversionYieldsTheContainer : Prop :=
  ∀ (s : State) (rom : List Byte) (h : rom.length = 4096), s.refused = false → s.phase = .idle → s.final = false →
    s.buf = [] →
    ∃ t u, exec (.encode rom) s = .next t ∧ exec .finalize t = .next u ∧ u.finished
      ∧ u.out = some (container (sampleStream (imageOf rom h)))

/-- Nothing of the image is lost on the tape: from one state with room for any stream, `ENCODE` of two images completes,
and if it leaves the same `BUF` the images are the same, byte for byte. (The symbols can be told apart, R118, which the
spec derives.) -/
def Obligations.BufferDeterminesTheImage : Prop :=
  ∀ (s : State) (romA romB : List Byte), s.refused = false → s.phase = .idle → s.final = false →
    s.len + 390386 ≤ Config.lenMax → romA.length = 4096 → romB.length = 4096 →
    ∃ t u, exec (.encode romA) s = .next t ∧ exec (.encode romB) s = .next u ∧ t.phase = .done ∧ u.phase = .done
      ∧ (t.buf = u.buf → romA = romB)

/-! ## Frames: what an operation leaves unchanged whenever it gives a next state, refused part-way or not -/

/-- `WBYTE`, `WDUR`, `PUSH`, `STONE`, `CALIB`, `TRAILER` store at offset `LEN` of `BUF` and nowhere else: everything but
`BUF`, `REFUSED` and the reason told is unchanged, and every byte of `BUF` below `LEN` reads as before. For a refused one
that is the model's choice (log entry 3; what a part-way one leaves is log entry 9). -/
def Obligations.SendingOperationsFrame : Prop :=
  ∀ (i : Instr) (s t : State),
    ((∃ b, i = .wbyte b) ∨ (∃ b d, i = .wdur b d) ∨ (∃ seq, i = .push seq) ∨ i = .stone ∨ i = .calib ∨ i = .trailer) →
    exec i s = .next t →
    t = { s with buf := t.buf, refused := t.refused, report := t.report }
      ∧ (∀ a < s.len, t.bufRead a = s.bufRead a) ∧ s.len ≤ t.len

/-- `HEADER`, `BLOCK` and `ENCODE` change only the registers R26 names for them, `BUF`, `DIAG` and (`ENCODE`) the tables
and `PHASE`; every byte of `BUF` below `LEN` and every diagnostic record stays. For a refused one that is the model's
choice (log entry 3; what a part-way one leaves is log entry 9; that the fault is a next state is log entry 4). -/
def Obligations.FrameBuildersFrame : Prop :=
  ∀ (s t : State) (image : Image) (rom : List Byte),
    (exec (.header image) s = .next t →
      t = { s with hdr := t.hdr, csum := t.csum, buf := t.buf, diag := t.diag, refused := t.refused, report := t.report }
        ∧ (∀ a < s.len, t.bufRead a = s.bufRead a) ∧ s.diag <+: t.diag)
    ∧ (exec (.block image) s = .next t →
      t = { s with page := t.page, csum := t.csum, blk := t.blk, buf := t.buf, diag := t.diag, refused := t.refused,
                   report := t.report }
        ∧ (∀ a < s.len, t.bufRead a = s.bufRead a) ∧ s.diag <+: t.diag)
    ∧ (exec (.encode rom) s = .next t →
      t = { s with phase := t.phase, tableStart := t.tableStart, tableZero := t.tableZero, tableOne := t.tableOne,
                   hdr := t.hdr, blk := t.blk, page := t.page, csum := t.csum, buf := t.buf, diag := t.diag,
                   refused := t.refused, report := t.report }
        ∧ (∀ a < s.len, t.bufRead a = s.bufRead a) ∧ s.diag <+: t.diag)

/-- `SYNTH`, `FINALIZE`, `PAGE`, `HCSUM` and `BCSUM` append nothing: each changes only what R26 names for it, and every
byte of `BUF` reads as before. That the functions write `PAGE` and `CSUM` is log entry 11, that `HCSUM` may advance the
free-value counter is log entry 7, that a refused one changes nothing but `REFUSED` and the reason told is log entry 3.
-/
def Obligations.RegisterOperationsFrame : Prop :=
  ∀ (s t : State),
    (∀ tone, exec (.synth tone) s = .next t →
      t = { s with tableStart := t.tableStart, tableZero := t.tableZero, tableOne := t.tableOne, refused := t.refused,
                   report := t.report }
        ∧ (∀ u ≠ tone, t.table u = s.table u) ∧ ∀ a, t.bufRead a = s.bufRead a)
    ∧ (exec .finalize s = .next t →
      t = { s with out := t.out, final := t.final, refused := t.refused, report := t.report }
        ∧ ∀ a, t.bufRead a = s.bufRead a)
    ∧ (∀ b, exec (.page b) s = .next t →
      t = { s with page := t.page, refused := t.refused, report := t.report } ∧ ∀ a, t.bufRead a = s.bufRead a)
    ∧ (exec .hcsum s = .next t →
      t = { s with csum := t.csum, freeIx := t.freeIx, refused := t.refused, report := t.report }
        ∧ ∀ a, t.bufRead a = s.bufRead a)
    ∧ (∀ page data, exec (.bcsum page data) s = .next t →
      t = { s with csum := t.csum, refused := t.refused, report := t.report } ∧ ∀ a, t.bufRead a = s.bufRead a)

/-! ## The whole machine -/

/-- The invariant holds after reset. -/
def Obligations.InvariantAtReset : Prop := State.reset.Inv

/-- HEADLINE. Every step from a state that meets the invariant gives one that meets it: `LEN` within its limit, valid
tables at their presets, a header that sums to 0x55, `BLK` at most 16, `OUT` the container of `BUF` once finalized, a
finished conversion complete. (It holds of refused states too, where what is left is log entries 3 and 9, and speaks of
the reason told, log entry 5.) -/
def Obligations.StepKeepsInvariant : Prop :=
  ∀ s t : State, s.Inv → step s = .next t → t.Inv

/-- `BUF` only grows, and once finalized it and `FINAL` never change, but by `RESET` (R42, R211; `FINAL` is decision
D17; what a refused operation leaves of `BUF` is log entries 3 and 9). -/
def Obligations.BufferGrowsUntilFinal : Prop :=
  ∀ (i : Instr) (s t : State), i ≠ .reset → exec i s = .next t →
    s.buf <+: t.buf ∧ (s.final = true → t.buf = s.buf ∧ t.final = true)

/-- The transitions of `PHASE` (R28, the spec's decision D10): only `RESET` and an `ENCODE` in `IDLE` on an open buffer
change it (that the fault and a refusal are next states is log entries 4 and 3). -/
def Obligations.PhaseTransitions : Prop :=
  ∀ (i : Instr) (s t : State), exec i s = .next t → t.phase ≠ s.phase →
    (i = .reset ∧ t.phase = .idle)
    ∨ ∃ rom, i = .encode rom ∧ s.phase = .idle ∧ s.final = false
        ∧ ((rom.length = 4096 ∧ t.phase = .done) ∨ (rom.length ≠ 4096 ∧ t.phase = .fault))

/-- In `PHASE = FAULT` every operation but `RESET` is refused with `Faulted` and changes nothing else (decisions D12, D13;
log entry 3). -/
def Obligations.FaultIsLeftOnlyByReset : Prop :=
  ∀ (i : Instr) (s : State), i ≠ .reset → s.phase = .fault → s.refused = false →
    exec i s = .next { s with refused := true, report := some (.refusal .faulted) }

/-- After a refusal every operation but `RESET` is stuck, and so is a command the interface would turn away; and that is
the machine's only stop, of an operation and of a step (R244, U10: the spec's decision D13; log entry 3). -/
def Obligations.StopsExactlyAfterRefusal : Prop :=
  (∀ (i : Instr) (s : State), (exec i s = .fault .stuckAfterRefusal ↔ s.refused = true ∧ i ≠ .reset)
    ∧ ((∃ t, exec i s = .next t) ↔ s.refused = false ∨ i = .reset))
  ∧ ∀ s : State,
    (step s = .fault .stuckAfterRefusal ↔ s.refused = true ∧ ∃ c, nextCommand s = some c ∧ c ≠ .ok .reset)
    ∧ ((∃ t, step s = .next t) ↔ s.refused = false ∨ nextCommand s = none ∨ nextCommand s = some (.ok .reset))

/-- Diagnostics never feed back (R183): the same operation on a state with another `DIAG` ends alike, in a state that
differs in `DIAG` alone (refused ones too, where what is left is log entries 3 and 9). -/
def Obligations.DiagnosticsNeverFeedBack : Prop :=
  ∀ (i : Instr) (s : State) (d : List DiagRecord),
    (∀ t, exec i s = .next t → ∃ d', exec i { s with diag := d } = .next { t with diag := d' })
    ∧ (∀ f, exec i s = .fault f → exec i { s with diag := d } = .fault f)

/-! ## The order of the steps -/

/-- `ENCODE` is its steps in the fixed order of R171, each once, the blocks sixteen times: issued one after another from
the same state, the three `SYNTH`s, `STONE`, `CALIB` and `HEADER`, then, with `BLK` at 0, sixteen `BLOCK`s and `TRAILER`
all complete, and the state they leave, `PHASE` set to `DONE`, is the one `ENCODE` leaves (R170 and its decision D10).
-/
def Obligations.EncodeIsItsStepsInOrder : Prop :=
  ∀ (s : State) (rom : List Byte) (h : rom.length = 4096), s.refused = false → s.phase = .idle → s.final = false →
    s.len + (sampleStream (imageOf rom h)).length ≤ Config.lenMax →
    ∃ t u,
      execAll [.synth .start, .synth .zero, .synth .one, .stone, .calib, .header (imageOf rom h)] s = .next t
      ∧ execAll (List.replicate 16 (.block (imageOf rom h)) ++ [.trailer]) { t with blk := 0 } = .next u
      ∧ u.refused = false ∧ exec (.encode rom) s = .next { u with phase := .done }

/-- No step is composed with another but inside `ENCODE` (R171): every next state has the step wires at rest, and from
there a step of the machine runs nothing, or an operation of the host's, or turns a command away (that the commands
stand in a list and what is on the step wires in a field is log entries 1 and 2; a refusal is log entry 3). -/
def Obligations.StepsRunOnlyInsideEncode : Prop :=
  (∀ s t : State, step s = .next t → t.driven = none)
  ∧ ∀ s : State, s.driven = none →
    (s.pending = [] ∧ step s = .next s)
    ∨ ∃ c rest, s.pending = c :: rest
      ∧ ((∃ i : Instr, i.kind = .host ∧ decode c = .ok i ∧ step s = exec i { s with pending := rest })
        ∨ ∃ r, (r = .reservedOp ∨ r = .notHostOp) ∧ step s = refuseCommand r { s with pending := rest })

/-! ## Refusals of what sends through the mapper or the sink -/

/-- `WDUR` with a count of 1 or more is refused where `WBYTE` is, before a sample goes out: `BufferFinal` on a finalized
buffer, else `TableInvalid` with a table missing (R154, R217: decisions D5, D17; log entry 3). -/
def Obligations.WdurRefusedThroughWbyte : Prop :=
  ∀ (s : State) (b : Byte) (d : Ratio) (r : Reason), s.ready → d.den ≠ 0 → 16 * (d.den : ℤ) ≤ 11025 * d.num →
    s.sendRefused r → exec (.wdur b d) s = .next { s with refused := true, report := some (.refusal r) }

/-- The steps driven on a finalized buffer or with a table missing. `STONE` without its table is refused `TableInvalid`,
finalized or not, and with it on a finalized buffer `BufferFinal` (log entry 10; log entry 25). `CALIB` and `TRAILER`
are refused as `WBYTE` is; `HEADER` and `BLOCK` too, at their first byte, what their earlier lines wrote staying (log
entries 3, 9, 25). -/
def Obligations.StepRefusals : Prop :=
  ∀ (s : State) (image : Image), s.ready →
    (s.tableStart = none →
      exec .stone s = .next { s with refused := true, report := some (.refusal .tableInvalid) })
    ∧ (∀ tone, s.tableStart = some tone → s.final = true →
      exec .stone s = .next { s with refused := true, report := some (.refusal .bufferFinal) })
    ∧ ∀ r, s.sendRefused r →
      exec .calib s = .next { s with refused := true, report := some (.refusal r) }
      ∧ exec .trailer s = .next { s with refused := true, report := some (.refusal r) }
      ∧ exec (.header image) s = .next { s with
          hdr := some (headerOf image), csum := some (headerOf image).checksum
          diag := s.diag ++ headerDiag (headerOf image), refused := true, report := some (.refusal r) }
      ∧ ∀ b : Fin 16, s.blk.toNat = b.val → exec (.block image) s = .next { s with
          page := some (pageNumber b), csum := some (blockChecksum (pageNumber b) (blockData image b))
          diag := s.diag ++ [blockDiag image b], refused := true, report := some (.refusal r) }

/-- `BufferFull` for what sends beside `PUSH` and `WBYTE` (R219, R245: decisions D13, D19): where the samples would pass
`LEN_MAX`, the whole symbols or cycles that fit go out and the first that does not is refused; what the operation's
earlier lines wrote stays, and `BLOCK` leaves `BLK` (log entries 3, 9, 25). -/
def Obligations.SendingPastTheLimit : Prop :=
  ∀ (s : State) (image : Image), s.ready → s.final = false → s.len ≤ Config.lenMax →
    (∀ tone : Vector Byte 51, s.tableStart = some tone → Config.lenMax < s.len + 4386 →
      exec .stone s = .next (s.filledUp (List.replicate 86 tone.toList)))
    ∧ ∀ (zero : Vector Byte 6) (one : Vector Byte 10), s.tableZero = some zero → s.tableOne = some one →
      (∀ (b : Byte) (d : Ratio), d.den ≠ 0 → 0 ≤ d.num →
        Config.lenMax < s.len + repeatCount d * (48 + 4 * popcount b) →
        exec (.wdur b d) s
          = .next (s.filledUp (symbolWrites zero.toList one.toList (List.replicate (repeatCount d) b))))
      ∧ (Config.lenMax < s.len + 22076 → exec .calib s
          = .next (s.filledUp (symbolWrites zero.toList one.toList (List.replicate 344 0x55 ++ [0x54]))))
      ∧ (Config.lenMax < s.len + 16512 →
          exec .trailer s = .next (s.filledUp (symbolWrites zero.toList one.toList (List.replicate 344 0x00))))
      ∧ (Config.lenMax < s.len + 48 * 8 + 4 * ((headerBytes (headerOf image)).map popcount).sum →
          exec (.header image) s = .next { s.filledUp
              (symbolWrites zero.toList one.toList (headerBytes (headerOf image))) with
            hdr := some (headerOf image), csum := some (headerOf image).checksum
            diag := s.diag ++ headerDiag (headerOf image) })
      ∧ ∀ b : Fin 16, s.blk.toNat = b.val →
        Config.lenMax < s.len + 48 * 258 + 4 * ((blockRecord image b).map popcount).sum →
          exec (.block image) s = .next { s.filledUp (symbolWrites zero.toList one.toList (blockRecord image b)) with
            page := some (pageNumber b), csum := some (blockChecksum (pageNumber b) (blockData image b))
            diag := s.diag ++ [blockDiag image b] }

/-- `ENCODE` of a 4096-byte image where its samples would pass `LEN_MAX` is refused with `BufferFull`: `PHASE` stays
`IDLE`, the tables hold their presets, and of the sample stream the whole cycles and symbols that fit stand behind what
`BUF` held (R219, R245: decisions D13, D19; log entries 3, 9, 25). -/
def Obligations.EncodePastTheLimit : Prop :=
  ∀ (s : State) (rom : List Byte) (h : rom.length = 4096), s.refused = false → s.phase = .idle → s.final = false →
    s.len ≤ Config.lenMax → Config.lenMax < s.len + (sampleStream (imageOf rom h)).length →
    ∃ t, exec (.encode rom) s = .next t ∧ t.refused = true ∧ t.report = some (.refusal .bufferFull) ∧ t.phase = .idle
      ∧ (∀ tone, t.table tone = some (toneValues tone))
      ∧ t.buf = s.buf ++ fitting (Config.lenMax - s.len) (List.replicate 86 (toneValues .start)
          ++ symbolWrites (toneValues .zero) (toneValues .one) (tapeBytes (imageOf rom h)))
end

