-- ==== Sys2Proof/Laws/State.lean ====
section
/-! SUPPORT. What each named update does to each field of State, so that no later proof unfolds a record update. -/

namespace Sys2Proof.Machine

variable (s : State)

section

variable (r : Reason)

@[simp] theorem setRefused_phase : (setRefused r s).phase = s.phase := rfl
@[simp] theorem setRefused_final : (setRefused r s).final = s.final := rfl
@[simp] theorem setRefused_refused : (setRefused r s).refused = true := rfl
@[simp] theorem setRefused_tableStart : (setRefused r s).tableStart = s.tableStart := rfl
@[simp] theorem setRefused_tableZero : (setRefused r s).tableZero = s.tableZero := rfl
@[simp] theorem setRefused_tableOne : (setRefused r s).tableOne = s.tableOne := rfl
@[simp] theorem setRefused_hdr : (setRefused r s).hdr = s.hdr := rfl
@[simp] theorem setRefused_blk : (setRefused r s).blk = s.blk := rfl
@[simp] theorem setRefused_page : (setRefused r s).page = s.page := rfl
@[simp] theorem setRefused_csum : (setRefused r s).csum = s.csum := rfl
@[simp] theorem setRefused_buf : (setRefused r s).buf = s.buf := rfl
@[simp] theorem setRefused_out : (setRefused r s).out = s.out := rfl
@[simp] theorem setRefused_diag : (setRefused r s).diag = s.diag := rfl
@[simp] theorem setRefused_report : (setRefused r s).report = some (.refusal r) := rfl
@[simp] theorem setRefused_pending : (setRefused r s).pending = s.pending := rfl
@[simp] theorem setRefused_driven : (setRefused r s).driven = s.driven := rfl
@[simp] theorem setRefused_freeIx : (setRefused r s).freeIx = s.freeIx := rfl
@[simp] theorem setRefused_len : (setRefused r s).len = s.len := rfl
@[simp] theorem setRefused_table (t : Tone) : (setRefused r s).table t = s.table t := by cases t <;> rfl

end

@[simp] theorem setFinal_phase : (setFinal s).phase = s.phase := rfl
@[simp] theorem setFinal_final : (setFinal s).final = true := rfl
@[simp] theorem setFinal_refused : (setFinal s).refused = s.refused := rfl
@[simp] theorem setFinal_tableStart : (setFinal s).tableStart = s.tableStart := rfl
@[simp] theorem setFinal_tableZero : (setFinal s).tableZero = s.tableZero := rfl
@[simp] theorem setFinal_tableOne : (setFinal s).tableOne = s.tableOne := rfl
@[simp] theorem setFinal_hdr : (setFinal s).hdr = s.hdr := rfl
@[simp] theorem setFinal_blk : (setFinal s).blk = s.blk := rfl
@[simp] theorem setFinal_page : (setFinal s).page = s.page := rfl
@[simp] theorem setFinal_csum : (setFinal s).csum = s.csum := rfl
@[simp] theorem setFinal_buf : (setFinal s).buf = s.buf := rfl
@[simp] theorem setFinal_out : (setFinal s).out = s.out := rfl
@[simp] theorem setFinal_diag : (setFinal s).diag = s.diag := rfl
@[simp] theorem setFinal_report : (setFinal s).report = s.report := rfl
@[simp] theorem setFinal_pending : (setFinal s).pending = s.pending := rfl
@[simp] theorem setFinal_driven : (setFinal s).driven = s.driven := rfl
@[simp] theorem setFinal_freeIx : (setFinal s).freeIx = s.freeIx := rfl
@[simp] theorem setFinal_len : (setFinal s).len = s.len := rfl
@[simp] theorem setFinal_table (t : Tone) : (setFinal s).table t = s.table t := by cases t <;> rfl

@[simp] theorem setDone_phase : (setDone s).phase = .done := rfl
@[simp] theorem setDone_final : (setDone s).final = s.final := rfl
@[simp] theorem setDone_refused : (setDone s).refused = s.refused := rfl
@[simp] theorem setDone_tableStart : (setDone s).tableStart = s.tableStart := rfl
@[simp] theorem setDone_tableZero : (setDone s).tableZero = s.tableZero := rfl
@[simp] theorem setDone_tableOne : (setDone s).tableOne = s.tableOne := rfl
@[simp] theorem setDone_hdr : (setDone s).hdr = s.hdr := rfl
@[simp] theorem setDone_blk : (setDone s).blk = s.blk := rfl
@[simp] theorem setDone_page : (setDone s).page = s.page := rfl
@[simp] theorem setDone_csum : (setDone s).csum = s.csum := rfl
@[simp] theorem setDone_buf : (setDone s).buf = s.buf := rfl
@[simp] theorem setDone_out : (setDone s).out = s.out := rfl
@[simp] theorem setDone_diag : (setDone s).diag = s.diag := rfl
@[simp] theorem setDone_report : (setDone s).report = s.report := rfl
@[simp] theorem setDone_pending : (setDone s).pending = s.pending := rfl
@[simp] theorem setDone_driven : (setDone s).driven = s.driven := rfl
@[simp] theorem setDone_freeIx : (setDone s).freeIx = s.freeIx := rfl
@[simp] theorem setDone_len : (setDone s).len = s.len := rfl
@[simp] theorem setDone_table (t : Tone) : (setDone s).table t = s.table t := by cases t <;> rfl

section

variable (x : List Byte)

@[simp] theorem bufAppend_phase : (bufAppend s x).phase = s.phase := rfl
@[simp] theorem bufAppend_final : (bufAppend s x).final = s.final := rfl
@[simp] theorem bufAppend_refused : (bufAppend s x).refused = s.refused := rfl
@[simp] theorem bufAppend_tableStart : (bufAppend s x).tableStart = s.tableStart := rfl
@[simp] theorem bufAppend_tableZero : (bufAppend s x).tableZero = s.tableZero := rfl
@[simp] theorem bufAppend_tableOne : (bufAppend s x).tableOne = s.tableOne := rfl
@[simp] theorem bufAppend_hdr : (bufAppend s x).hdr = s.hdr := rfl
@[simp] theorem bufAppend_blk : (bufAppend s x).blk = s.blk := rfl
@[simp] theorem bufAppend_page : (bufAppend s x).page = s.page := rfl
@[simp] theorem bufAppend_csum : (bufAppend s x).csum = s.csum := rfl
@[simp] theorem bufAppend_buf : (bufAppend s x).buf = s.buf ++ replicateChannels x := rfl
@[simp] theorem bufAppend_out : (bufAppend s x).out = s.out := rfl
@[simp] theorem bufAppend_diag : (bufAppend s x).diag = s.diag := rfl
@[simp] theorem bufAppend_report : (bufAppend s x).report = s.report := rfl
@[simp] theorem bufAppend_pending : (bufAppend s x).pending = s.pending := rfl
@[simp] theorem bufAppend_driven : (bufAppend s x).driven = s.driven := rfl
@[simp] theorem bufAppend_freeIx : (bufAppend s x).freeIx = s.freeIx := rfl
@[simp] theorem bufAppend_table (t : Tone) : (bufAppend s x).table t = s.table t := by cases t <;> rfl

end

section

variable (d : List DiagRecord)

@[simp] theorem emitDiag_phase : (emitDiag d s).phase = s.phase := rfl
@[simp] theorem emitDiag_final : (emitDiag d s).final = s.final := rfl
@[simp] theorem emitDiag_refused : (emitDiag d s).refused = s.refused := rfl
@[simp] theorem emitDiag_tableStart : (emitDiag d s).tableStart = s.tableStart := rfl
@[simp] theorem emitDiag_tableZero : (emitDiag d s).tableZero = s.tableZero := rfl
@[simp] theorem emitDiag_tableOne : (emitDiag d s).tableOne = s.tableOne := rfl
@[simp] theorem emitDiag_hdr : (emitDiag d s).hdr = s.hdr := rfl
@[simp] theorem emitDiag_blk : (emitDiag d s).blk = s.blk := rfl
@[simp] theorem emitDiag_page : (emitDiag d s).page = s.page := rfl
@[simp] theorem emitDiag_csum : (emitDiag d s).csum = s.csum := rfl
@[simp] theorem emitDiag_buf : (emitDiag d s).buf = s.buf := rfl
@[simp] theorem emitDiag_out : (emitDiag d s).out = s.out := rfl
@[simp] theorem emitDiag_diag : (emitDiag d s).diag = s.diag ++ d := rfl
@[simp] theorem emitDiag_report : (emitDiag d s).report = s.report := rfl
@[simp] theorem emitDiag_pending : (emitDiag d s).pending = s.pending := rfl
@[simp] theorem emitDiag_driven : (emitDiag d s).driven = s.driven := rfl
@[simp] theorem emitDiag_freeIx : (emitDiag d s).freeIx = s.freeIx := rfl
@[simp] theorem emitDiag_len : (emitDiag d s).len = s.len := rfl
@[simp] theorem emitDiag_table (t : Tone) : (emitDiag d s).table t = s.table t := by cases t <;> rfl

end

section

variable (v : Byte)

@[simp] theorem writeCsum_phase : (writeCsum v s).phase = s.phase := rfl
@[simp] theorem writeCsum_final : (writeCsum v s).final = s.final := rfl
@[simp] theorem writeCsum_refused : (writeCsum v s).refused = s.refused := rfl
@[simp] theorem writeCsum_tableStart : (writeCsum v s).tableStart = s.tableStart := rfl
@[simp] theorem writeCsum_tableZero : (writeCsum v s).tableZero = s.tableZero := rfl
@[simp] theorem writeCsum_tableOne : (writeCsum v s).tableOne = s.tableOne := rfl
@[simp] theorem writeCsum_hdr : (writeCsum v s).hdr = s.hdr := rfl
@[simp] theorem writeCsum_blk : (writeCsum v s).blk = s.blk := rfl
@[simp] theorem writeCsum_page : (writeCsum v s).page = s.page := rfl
@[simp] theorem writeCsum_csum : (writeCsum v s).csum = some v := rfl
@[simp] theorem writeCsum_buf : (writeCsum v s).buf = s.buf := rfl
@[simp] theorem writeCsum_out : (writeCsum v s).out = s.out := rfl
@[simp] theorem writeCsum_diag : (writeCsum v s).diag = s.diag := rfl
@[simp] theorem writeCsum_report : (writeCsum v s).report = s.report := rfl
@[simp] theorem writeCsum_pending : (writeCsum v s).pending = s.pending := rfl
@[simp] theorem writeCsum_driven : (writeCsum v s).driven = s.driven := rfl
@[simp] theorem writeCsum_freeIx : (writeCsum v s).freeIx = s.freeIx := rfl
@[simp] theorem writeCsum_len : (writeCsum v s).len = s.len := rfl
@[simp] theorem writeCsum_table (t : Tone) : (writeCsum v s).table t = s.table t := by cases t <;> rfl

end

section

variable (v : Byte)

@[simp] theorem writePage_phase : (writePage v s).phase = s.phase := rfl
@[simp] theorem writePage_final : (writePage v s).final = s.final := rfl
@[simp] theorem writePage_refused : (writePage v s).refused = s.refused := rfl
@[simp] theorem writePage_tableStart : (writePage v s).tableStart = s.tableStart := rfl
@[simp] theorem writePage_tableZero : (writePage v s).tableZero = s.tableZero := rfl
@[simp] theorem writePage_tableOne : (writePage v s).tableOne = s.tableOne := rfl
@[simp] theorem writePage_hdr : (writePage v s).hdr = s.hdr := rfl
@[simp] theorem writePage_blk : (writePage v s).blk = s.blk := rfl
@[simp] theorem writePage_page : (writePage v s).page = some v := rfl
@[simp] theorem writePage_csum : (writePage v s).csum = s.csum := rfl
@[simp] theorem writePage_buf : (writePage v s).buf = s.buf := rfl
@[simp] theorem writePage_out : (writePage v s).out = s.out := rfl
@[simp] theorem writePage_diag : (writePage v s).diag = s.diag := rfl
@[simp] theorem writePage_report : (writePage v s).report = s.report := rfl
@[simp] theorem writePage_pending : (writePage v s).pending = s.pending := rfl
@[simp] theorem writePage_driven : (writePage v s).driven = s.driven := rfl
@[simp] theorem writePage_freeIx : (writePage v s).freeIx = s.freeIx := rfl
@[simp] theorem writePage_len : (writePage v s).len = s.len := rfl
@[simp] theorem writePage_table (t : Tone) : (writePage v s).table t = s.table t := by cases t <;> rfl

end

section

variable (h : HeaderRecord)

@[simp] theorem writeHdr_phase : (writeHdr h s).phase = s.phase := rfl
@[simp] theorem writeHdr_final : (writeHdr h s).final = s.final := rfl
@[simp] theorem writeHdr_refused : (writeHdr h s).refused = s.refused := rfl
@[simp] theorem writeHdr_tableStart : (writeHdr h s).tableStart = s.tableStart := rfl
@[simp] theorem writeHdr_tableZero : (writeHdr h s).tableZero = s.tableZero := rfl
@[simp] theorem writeHdr_tableOne : (writeHdr h s).tableOne = s.tableOne := rfl
@[simp] theorem writeHdr_hdr : (writeHdr h s).hdr = some h := rfl
@[simp] theorem writeHdr_blk : (writeHdr h s).blk = s.blk := rfl
@[simp] theorem writeHdr_page : (writeHdr h s).page = s.page := rfl
@[simp] theorem writeHdr_csum : (writeHdr h s).csum = s.csum := rfl
@[simp] theorem writeHdr_buf : (writeHdr h s).buf = s.buf := rfl
@[simp] theorem writeHdr_out : (writeHdr h s).out = s.out := rfl
@[simp] theorem writeHdr_diag : (writeHdr h s).diag = s.diag := rfl
@[simp] theorem writeHdr_report : (writeHdr h s).report = s.report := rfl
@[simp] theorem writeHdr_pending : (writeHdr h s).pending = s.pending := rfl
@[simp] theorem writeHdr_driven : (writeHdr h s).driven = s.driven := rfl
@[simp] theorem writeHdr_freeIx : (writeHdr h s).freeIx = s.freeIx := rfl
@[simp] theorem writeHdr_len : (writeHdr h s).len = s.len := rfl
@[simp] theorem writeHdr_table (t : Tone) : (writeHdr h s).table t = s.table t := by cases t <;> rfl

end

section

variable (n : Nat)

@[simp] theorem writeBlk_phase : (writeBlk n s).phase = s.phase := rfl
@[simp] theorem writeBlk_final : (writeBlk n s).final = s.final := rfl
@[simp] theorem writeBlk_refused : (writeBlk n s).refused = s.refused := rfl
@[simp] theorem writeBlk_tableStart : (writeBlk n s).tableStart = s.tableStart := rfl
@[simp] theorem writeBlk_tableZero : (writeBlk n s).tableZero = s.tableZero := rfl
@[simp] theorem writeBlk_tableOne : (writeBlk n s).tableOne = s.tableOne := rfl
@[simp] theorem writeBlk_hdr : (writeBlk n s).hdr = s.hdr := rfl
@[simp] theorem writeBlk_blk : (writeBlk n s).blk = BitVec.ofNat 5 n := rfl
@[simp] theorem writeBlk_page : (writeBlk n s).page = s.page := rfl
@[simp] theorem writeBlk_csum : (writeBlk n s).csum = s.csum := rfl
@[simp] theorem writeBlk_buf : (writeBlk n s).buf = s.buf := rfl
@[simp] theorem writeBlk_out : (writeBlk n s).out = s.out := rfl
@[simp] theorem writeBlk_diag : (writeBlk n s).diag = s.diag := rfl
@[simp] theorem writeBlk_report : (writeBlk n s).report = s.report := rfl
@[simp] theorem writeBlk_pending : (writeBlk n s).pending = s.pending := rfl
@[simp] theorem writeBlk_driven : (writeBlk n s).driven = s.driven := rfl
@[simp] theorem writeBlk_freeIx : (writeBlk n s).freeIx = s.freeIx := rfl
@[simp] theorem writeBlk_len : (writeBlk n s).len = s.len := rfl
@[simp] theorem writeBlk_table (t : Tone) : (writeBlk n s).table t = s.table t := by cases t <;> rfl

end

@[simp] theorem writeOut_phase : (writeOut s).phase = s.phase := rfl
@[simp] theorem writeOut_final : (writeOut s).final = s.final := rfl
@[simp] theorem writeOut_refused : (writeOut s).refused = s.refused := rfl
@[simp] theorem writeOut_tableStart : (writeOut s).tableStart = s.tableStart := rfl
@[simp] theorem writeOut_tableZero : (writeOut s).tableZero = s.tableZero := rfl
@[simp] theorem writeOut_tableOne : (writeOut s).tableOne = s.tableOne := rfl
@[simp] theorem writeOut_hdr : (writeOut s).hdr = s.hdr := rfl
@[simp] theorem writeOut_blk : (writeOut s).blk = s.blk := rfl
@[simp] theorem writeOut_page : (writeOut s).page = s.page := rfl
@[simp] theorem writeOut_csum : (writeOut s).csum = s.csum := rfl
@[simp] theorem writeOut_buf : (writeOut s).buf = s.buf := rfl
@[simp] theorem writeOut_out : (writeOut s).out = some (container s.buf) := rfl
@[simp] theorem writeOut_diag : (writeOut s).diag = s.diag := rfl
@[simp] theorem writeOut_report : (writeOut s).report = s.report := rfl
@[simp] theorem writeOut_pending : (writeOut s).pending = s.pending := rfl
@[simp] theorem writeOut_driven : (writeOut s).driven = s.driven := rfl
@[simp] theorem writeOut_freeIx : (writeOut s).freeIx = s.freeIx := rfl
@[simp] theorem writeOut_len : (writeOut s).len = s.len := rfl
@[simp] theorem writeOut_table (t : Tone) : (writeOut s).table t = s.table t := by cases t <;> rfl

@[simp] theorem nextFree_phase : (nextFree s).phase = s.phase := rfl
@[simp] theorem nextFree_final : (nextFree s).final = s.final := rfl
@[simp] theorem nextFree_refused : (nextFree s).refused = s.refused := rfl
@[simp] theorem nextFree_tableStart : (nextFree s).tableStart = s.tableStart := rfl
@[simp] theorem nextFree_tableZero : (nextFree s).tableZero = s.tableZero := rfl
@[simp] theorem nextFree_tableOne : (nextFree s).tableOne = s.tableOne := rfl
@[simp] theorem nextFree_hdr : (nextFree s).hdr = s.hdr := rfl
@[simp] theorem nextFree_blk : (nextFree s).blk = s.blk := rfl
@[simp] theorem nextFree_page : (nextFree s).page = s.page := rfl
@[simp] theorem nextFree_csum : (nextFree s).csum = s.csum := rfl
@[simp] theorem nextFree_buf : (nextFree s).buf = s.buf := rfl
@[simp] theorem nextFree_out : (nextFree s).out = s.out := rfl
@[simp] theorem nextFree_diag : (nextFree s).diag = s.diag := rfl
@[simp] theorem nextFree_report : (nextFree s).report = s.report := rfl
@[simp] theorem nextFree_pending : (nextFree s).pending = s.pending := rfl
@[simp] theorem nextFree_driven : (nextFree s).driven = s.driven := rfl
@[simp] theorem nextFree_freeIx : (nextFree s).freeIx = s.freeIx + 1 := rfl
@[simp] theorem nextFree_len : (nextFree s).len = s.len := rfl
@[simp] theorem nextFree_table (t : Tone) : (nextFree s).table t = s.table t := by cases t <;> rfl

section

variable (n : Nat)

@[simp] theorem takeRomSizeFault_phase : (takeRomSizeFault n s).phase = .fault := rfl
@[simp] theorem takeRomSizeFault_final : (takeRomSizeFault n s).final = s.final := rfl
@[simp] theorem takeRomSizeFault_refused : (takeRomSizeFault n s).refused = s.refused := rfl
@[simp] theorem takeRomSizeFault_tableStart : (takeRomSizeFault n s).tableStart = s.tableStart := rfl
@[simp] theorem takeRomSizeFault_tableZero : (takeRomSizeFault n s).tableZero = s.tableZero := rfl
@[simp] theorem takeRomSizeFault_tableOne : (takeRomSizeFault n s).tableOne = s.tableOne := rfl
@[simp] theorem takeRomSizeFault_hdr : (takeRomSizeFault n s).hdr = s.hdr := rfl
@[simp] theorem takeRomSizeFault_blk : (takeRomSizeFault n s).blk = s.blk := rfl
@[simp] theorem takeRomSizeFault_page : (takeRomSizeFault n s).page = s.page := rfl
@[simp] theorem takeRomSizeFault_csum : (takeRomSizeFault n s).csum = s.csum := rfl
@[simp] theorem takeRomSizeFault_buf : (takeRomSizeFault n s).buf = s.buf := rfl
@[simp] theorem takeRomSizeFault_out : (takeRomSizeFault n s).out = s.out := rfl
@[simp] theorem takeRomSizeFault_diag : (takeRomSizeFault n s).diag = s.diag := rfl
@[simp] theorem takeRomSizeFault_report : (takeRomSizeFault n s).report = some (.romSizeFault n) := rfl
@[simp] theorem takeRomSizeFault_pending : (takeRomSizeFault n s).pending = s.pending := rfl
@[simp] theorem takeRomSizeFault_driven : (takeRomSizeFault n s).driven = s.driven := rfl
@[simp] theorem takeRomSizeFault_freeIx : (takeRomSizeFault n s).freeIx = s.freeIx := rfl
@[simp] theorem takeRomSizeFault_len : (takeRomSizeFault n s).len = s.len := rfl
@[simp] theorem takeRomSizeFault_table (t : Tone) : (takeRomSizeFault n s).table t = s.table t := by cases t <;> rfl

end

@[simp] theorem resetState_phase : (resetState s).phase = .idle := rfl
@[simp] theorem resetState_final : (resetState s).final = false := rfl
@[simp] theorem resetState_refused : (resetState s).refused = false := rfl
@[simp] theorem resetState_tableStart : (resetState s).tableStart = none := rfl
@[simp] theorem resetState_tableZero : (resetState s).tableZero = none := rfl
@[simp] theorem resetState_tableOne : (resetState s).tableOne = none := rfl
@[simp] theorem resetState_hdr : (resetState s).hdr = none := rfl
@[simp] theorem resetState_blk : (resetState s).blk = 0 := rfl
@[simp] theorem resetState_page : (resetState s).page = none := rfl
@[simp] theorem resetState_csum : (resetState s).csum = none := rfl
@[simp] theorem resetState_buf : (resetState s).buf = [] := rfl
@[simp] theorem resetState_out : (resetState s).out = none := rfl
@[simp] theorem resetState_diag : (resetState s).diag = [] := rfl
@[simp] theorem resetState_report : (resetState s).report = none := rfl
@[simp] theorem resetState_pending : (resetState s).pending = s.pending := rfl
@[simp] theorem resetState_driven : (resetState s).driven = none := rfl
@[simp] theorem resetState_freeIx : (resetState s).freeIx = s.freeIx := rfl

@[simp] theorem synthesize_start_tableStart : (synthesize .start s).tableStart = some startTableValues := rfl
@[simp] theorem synthesize_start_tableZero : (synthesize .start s).tableZero = s.tableZero := rfl
@[simp] theorem synthesize_start_tableOne : (synthesize .start s).tableOne = s.tableOne := rfl
@[simp] theorem synthesize_zero_tableStart : (synthesize .zero s).tableStart = s.tableStart := rfl
@[simp] theorem synthesize_zero_tableZero : (synthesize .zero s).tableZero = some zeroTableValues := rfl
@[simp] theorem synthesize_zero_tableOne : (synthesize .zero s).tableOne = s.tableOne := rfl
@[simp] theorem synthesize_one_tableStart : (synthesize .one s).tableStart = s.tableStart := rfl
@[simp] theorem synthesize_one_tableZero : (synthesize .one s).tableZero = s.tableZero := rfl
@[simp] theorem synthesize_one_tableOne : (synthesize .one s).tableOne = some oneTableValues := rfl
@[simp] theorem takeCommand_phase : (takeCommand s).phase = s.phase := by unfold takeCommand; split <;> rfl
@[simp] theorem presentTableWord_phase (w : Nat) : (presentTableWord s w).phase = s.phase := by
  unfold presentTableWord; split <;> rfl
@[simp] theorem takeCommand_final : (takeCommand s).final = s.final := by unfold takeCommand; split <;> rfl
@[simp] theorem presentTableWord_final (w : Nat) : (presentTableWord s w).final = s.final := by
  unfold presentTableWord; split <;> rfl
@[simp] theorem takeCommand_refused : (takeCommand s).refused = s.refused := by unfold takeCommand; split <;> rfl
@[simp] theorem presentTableWord_refused (w : Nat) : (presentTableWord s w).refused = s.refused := by
  unfold presentTableWord; split <;> rfl
@[simp] theorem takeCommand_tableStart : (takeCommand s).tableStart = s.tableStart := by unfold takeCommand; split <;> rfl
@[simp] theorem presentTableWord_tableStart (w : Nat) : (presentTableWord s w).tableStart = s.tableStart := by
  unfold presentTableWord; split <;> rfl
@[simp] theorem takeCommand_tableZero : (takeCommand s).tableZero = s.tableZero := by unfold takeCommand; split <;> rfl
@[simp] theorem presentTableWord_tableZero (w : Nat) : (presentTableWord s w).tableZero = s.tableZero := by
  unfold presentTableWord; split <;> rfl
@[simp] theorem takeCommand_tableOne : (takeCommand s).tableOne = s.tableOne := by unfold takeCommand; split <;> rfl
@[simp] theorem presentTableWord_tableOne (w : Nat) : (presentTableWord s w).tableOne = s.tableOne := by
  unfold presentTableWord; split <;> rfl
@[simp] theorem takeCommand_hdr : (takeCommand s).hdr = s.hdr := by unfold takeCommand; split <;> rfl
@[simp] theorem presentTableWord_hdr (w : Nat) : (presentTableWord s w).hdr = s.hdr := by
  unfold presentTableWord; split <;> rfl
@[simp] theorem takeCommand_blk : (takeCommand s).blk = s.blk := by unfold takeCommand; split <;> rfl
@[simp] theorem presentTableWord_blk (w : Nat) : (presentTableWord s w).blk = s.blk := by
  unfold presentTableWord; split <;> rfl
@[simp] theorem takeCommand_page : (takeCommand s).page = s.page := by unfold takeCommand; split <;> rfl
@[simp] theorem presentTableWord_page (w : Nat) : (presentTableWord s w).page = s.page := by
  unfold presentTableWord; split <;> rfl
@[simp] theorem takeCommand_csum : (takeCommand s).csum = s.csum := by unfold takeCommand; split <;> rfl
@[simp] theorem presentTableWord_csum (w : Nat) : (presentTableWord s w).csum = s.csum := by
  unfold presentTableWord; split <;> rfl
@[simp] theorem takeCommand_buf : (takeCommand s).buf = s.buf := by unfold takeCommand; split <;> rfl
@[simp] theorem presentTableWord_buf (w : Nat) : (presentTableWord s w).buf = s.buf := by
  unfold presentTableWord; split <;> rfl
@[simp] theorem takeCommand_out : (takeCommand s).out = s.out := by unfold takeCommand; split <;> rfl
@[simp] theorem presentTableWord_out (w : Nat) : (presentTableWord s w).out = s.out := by
  unfold presentTableWord; split <;> rfl
@[simp] theorem takeCommand_diag : (takeCommand s).diag = s.diag := by unfold takeCommand; split <;> rfl
@[simp] theorem presentTableWord_diag (w : Nat) : (presentTableWord s w).diag = s.diag := by
  unfold presentTableWord; split <;> rfl
@[simp] theorem takeCommand_report : (takeCommand s).report = s.report := by unfold takeCommand; split <;> rfl
@[simp] theorem presentTableWord_report (w : Nat) : (presentTableWord s w).report = s.report := by
  unfold presentTableWord; split <;> rfl
@[simp] theorem takeCommand_freeIx : (takeCommand s).freeIx = s.freeIx := by unfold takeCommand; split <;> rfl
@[simp] theorem presentTableWord_freeIx (w : Nat) : (presentTableWord s w).freeIx = s.freeIx := by
  unfold presentTableWord; split <;> rfl

/-- Once a command has been taken the step wires are at rest (R171). -/
@[simp] theorem takeCommand_driven : (takeCommand s).driven = none := by
  unfold takeCommand
  split
  · rfl
  · assumption

@[simp] theorem takeCommand_len : (takeCommand s).len = s.len := by simp [State.len]
@[simp] theorem takeCommand_table (t : Tone) : (takeCommand s).table t = s.table t := by cases t <;> simp [State.table]

section

variable (t : Tone)

@[simp] theorem synthesize_phase : (synthesize t s).phase = s.phase := by cases t <;> rfl
@[simp] theorem synthesize_final : (synthesize t s).final = s.final := by cases t <;> rfl
@[simp] theorem synthesize_refused : (synthesize t s).refused = s.refused := by cases t <;> rfl
@[simp] theorem synthesize_hdr : (synthesize t s).hdr = s.hdr := by cases t <;> rfl
@[simp] theorem synthesize_blk : (synthesize t s).blk = s.blk := by cases t <;> rfl
@[simp] theorem synthesize_page : (synthesize t s).page = s.page := by cases t <;> rfl
@[simp] theorem synthesize_csum : (synthesize t s).csum = s.csum := by cases t <;> rfl
@[simp] theorem synthesize_buf : (synthesize t s).buf = s.buf := by cases t <;> rfl
@[simp] theorem synthesize_out : (synthesize t s).out = s.out := by cases t <;> rfl
@[simp] theorem synthesize_diag : (synthesize t s).diag = s.diag := by cases t <;> rfl
@[simp] theorem synthesize_report : (synthesize t s).report = s.report := by cases t <;> rfl
@[simp] theorem synthesize_pending : (synthesize t s).pending = s.pending := by cases t <;> rfl
@[simp] theorem synthesize_driven : (synthesize t s).driven = s.driven := by cases t <;> rfl
@[simp] theorem synthesize_freeIx : (synthesize t s).freeIx = s.freeIx := by cases t <;> rfl

@[simp] theorem synthesize_len : (synthesize t s).len = s.len := by cases t <;> rfl

/-- After `SYNTH t`, `TABLE[t]` holds the preset of `t` and `TVALID[t]` is 1 (R130). -/
theorem synthesize_table : (synthesize t s).table t = some (toneValues t) ∧ (synthesize t s).tvalid t = true := by
  cases t <;> exact ⟨rfl, rfl⟩

/-- `SYNTH t` leaves the other tables alone. -/
theorem synthesize_table_ne {u : Tone} (h : u ≠ t) : (synthesize t s).table u = s.table u := by
  cases t <;> cases u <;> first | rfl | exact absurd rfl h

end

end Sys2Proof.Machine
end

