-- ==== Sys2Proof/Laws/Ops.lean ====
section
/-! SUPPORT. One lemma per shared operation that says what it can do: how a run goes on, what sending changes, and when it
completes. -/

namespace Sys2Proof.Machine

/-! Sequencing. -/

@[simp] theorem andThen_completed (s : State) (k : State → Run) : (Run.completed s).andThen k = k s := rfl

@[simp] theorem andThen_refused (r : Reason) (s : State) (k : State → Run) :
    (Run.refused r s).andThen k = .refused r s := rfl

theorem andThen_assoc (r : Run) (k k' : State → Run) :
    (r.andThen k).andThen k' = r.andThen fun s => (k s).andThen k' := by
  cases r <;> rfl

@[simp] theorem result_completed (s : State) : (Run.completed s).result = s := rfl

@[simp] theorem result_refused (r : Reason) (s : State) : (Run.refused r s).result = setRefused r s := rfl

/-- The state a run stopped in, before `REFUSED` is set. -/
def Run.last : Run → State
  | .completed s => s
  | .refused _ s => s

@[simp] theorem last_completed (s : State) : (Run.completed s).last = s := rfl

@[simp] theorem last_refused (r : Reason) (s : State) : (Run.refused r s).last = s := rfl

/-- A run's result is the state it stopped in, with a refusal marked or not. -/
theorem result_cases (r : Run) : r.result = r.last ∨ ∃ why, r.result = setRefused why r.last := by
  cases r with
  | completed s => exact .inl rfl
  | refused why s => exact .inr ⟨why, rfl⟩

/-- What holds at the start and is kept by every sub-operation holds where a sequence stops. -/
theorem andThen_last {P : State → Prop} {r : Run} {k : State → Run} (hr : P r.last)
    (hk : ∀ s, P s → P (k s).last) : P (r.andThen k).last := by
  cases r with
  | completed s => exact hk s hr
  | refused why s => exact hr

/-- What an operation keeps, its repetition keeps. -/
theorem repeatRun_last {P : State → Prop} {op : State → Run} (hop : ∀ s, P s → P (op s).last) (n : Nat) :
    ∀ s, P s → P (repeatRun op n s).last := by
  induction n with
  | zero => intro s hs; exact hs
  | succ n ih => intro s hs; exact andThen_last (hop s hs) ih

/-! Appending. -/

/-- With one channel the buffer holds the input stream unchanged (R212). -/
@[simp] theorem replicateChannels_eq (x : List Byte) : replicateChannels x = x := by
  simp [replicateChannels, Config.cfg]

@[simp] theorem bufAppend_nil (s : State) : bufAppend s [] = s := by
  simp [bufAppend]

@[simp] theorem bufAppend_bufAppend (s : State) (x y : List Byte) :
    bufAppend (bufAppend s x) y = bufAppend s (x ++ y) := by
  simp [bufAppend]

@[simp] theorem bufAppend_len (s : State) (x : List Byte) : (bufAppend s x).len = s.len + x.length := by
  simp [State.len]

/-- The sink accepts a write on an open buffer with room for it (R210). -/
theorem pushSamples_completed {s : State} {x : List Byte} (hf : s.final = false)
    (hl : s.len + x.length ≤ Config.lenMax) : pushSamples x s = .completed (bufAppend s x) := by
  have : ¬ Config.lenMax < s.len + x.length * Config.cfg.channels := by
    simp only [Config.cfg]; omega
  simp [pushSamples, hf, this]

/-- What a run that only sends samples leaves: the state it started in with something appended to `BUF`, nothing on a
finalized buffer, and never past `LEN_MAX`. -/
def Appends (s : State) (r : Run) : Prop :=
  ∃ x, r.last = bufAppend s x ∧ (s.final = true → x = []) ∧ (x ≠ [] → s.len + x.length ≤ Config.lenMax)

theorem Appends.rfl_completed (s : State) : Appends s (.completed s) :=
  ⟨[], by simp, fun _ => rfl, fun h => absurd rfl h⟩

theorem Appends.rfl_refused (r : Reason) (s : State) : Appends s (.refused r s) :=
  ⟨[], by simp, fun _ => rfl, fun h => absurd rfl h⟩

theorem Appends.andThen {s : State} {r : Run} {k : State → Run} (hr : Appends s r)
    (hk : ∀ s, Appends s (k s)) : Appends s (r.andThen k) := by
  cases r with
  | refused why u => exact hr
  | completed u =>
    obtain ⟨x, hx, hfx, hlx⟩ := hr
    obtain ⟨y, hy, hfy, hly⟩ := hk u
    simp only [last_completed] at hx
    subst hx
    refine ⟨x ++ y, by simpa using hy, fun h => ?_, fun h => ?_⟩
    · simp [hfx h, hfy (by simpa using h)]
    · by_cases hy0 : y = []
      · subst hy0
        simpa using hlx (by simpa using h)
      · have := hly hy0
        simp only [bufAppend_len] at this
        simp only [List.length_append]
        omega

/-- The sink only appends (R210, R211). -/
theorem pushSamples_appends (x : List Byte) (s : State) : Appends s (pushSamples x s) := by
  unfold pushSamples
  split
  · exact .rfl_refused _ _
  · next hf =>
    split
    · exact .rfl_refused _ _
    · next hl =>
      refine ⟨x, rfl, fun h => absurd h hf, fun _ => ?_⟩
      simp only [Config.cfg] at hl
      omega

theorem repeatRun_appends {op : State → Run} (hop : ∀ s, Appends s (op s)) (n : Nat) (s : State) :
    Appends s (repeatRun op n s) := by
  induction n generalizing s with
  | zero => exact .rfl_completed s
  | succ n ih => exact (hop s).andThen ih

theorem pushBits_appends (zero one : List Byte) (bits : List Bool) (s : State) :
    Appends s (pushBits zero one bits s) := by
  induction bits generalizing s with
  | nil => exact .rfl_completed s
  | cons b bits ih => exact (pushSamples_appends _ s).andThen ih

/-- `WBYTE` only appends (R151). -/
theorem sendByte_appends (b : Byte) (s : State) : Appends s (sendByte b s) := by
  unfold sendByte
  split
  · exact .rfl_refused _ _
  · split
    · exact pushBits_appends _ _ _ s
    · exact .rfl_refused _ _

theorem sendBytes_appends (bytes : List Byte) (s : State) : Appends s (sendBytes bytes s) := by
  induction bytes generalizing s with
  | nil => exact .rfl_completed s
  | cons b bytes ih => exact (sendByte_appends b s).andThen ih

/-- `WDUR` only appends (R154). -/
theorem sendDuration_appends (b : Byte) (d : Ratio) (s : State) : Appends s (sendDuration b d s) := by
  unfold sendDuration
  split
  · exact repeatRun_appends (sendByte_appends b) _ s
  · exact .rfl_refused _ _

/-- `STONE` only appends (R174). -/
theorem runStone_appends (s : State) : Appends s (runStone s) := by
  unfold runStone
  split
  · exact repeatRun_appends (pushSamples_appends _) _ s
  · exact .rfl_refused _ _

/-- `CALIB` only appends (R175). -/
theorem runCalib_appends (s : State) : Appends s (runCalib s) :=
  (sendDuration_appends _ _ s).andThen (sendByte_appends _)

/-- `TRAILER` only appends (R181). -/
theorem runTrailer_appends (s : State) : Appends s (runTrailer s) := sendDuration_appends _ _ s

/-! When sending completes, and what it appends. -/

theorem repeatRun_pushSamples {s : State} {x : List Byte} {n : Nat} (hf : s.final = false)
    (hl : s.len + n * x.length ≤ Config.lenMax) :
    repeatRun (pushSamples x) n s = .completed (bufAppend s (List.replicate n x).flatten) := by
  induction n generalizing s with
  | zero => simp [repeatRun]
  | succ n ih =>
    have h1 : s.len + x.length ≤ Config.lenMax := by rw [Nat.succ_mul] at hl; omega
    have h2 : (bufAppend s x).len + n * x.length ≤ Config.lenMax := by
      rw [Nat.succ_mul] at hl; simp only [bufAppend_len]; omega
    simp [repeatRun, pushSamples_completed hf h1, ih (s := bufAppend s x) (by simpa using hf) h2,
      List.replicate_succ]

theorem pushBits_completed {s : State} {zero one : List Byte} {bits : List Bool} (hf : s.final = false)
    (hl : s.len + (bits.flatMap fun bit => if bit then one else zero).length ≤ Config.lenMax) :
    pushBits zero one bits s = .completed (bufAppend s (bits.flatMap fun bit => if bit then one else zero)) := by
  induction bits generalizing s with
  | nil => simp [pushBits]
  | cons b bits ih =>
    rw [List.flatMap_cons, List.length_append] at hl
    have h1 : s.len + (if b then one else zero).length ≤ Config.lenMax := by omega
    simp only [pushBits, pushSamples_completed hf h1, andThen_completed, List.flatMap_cons]
    rw [ih (by simpa using hf) (by simp only [bufAppend_len]; omega), bufAppend_bufAppend]

/-- `WBYTE` completes on an open buffer with room, both tables valid (R151), and appends the byte's eight symbols. -/
theorem sendByte_completed {s : State} {zero one : List Byte} {b : Byte} (hf : s.final = false)
    (hz : s.table .zero = some zero) (ho : s.table .one = some one)
    (hl : s.len + (symbols zero one b).length ≤ Config.lenMax) :
    sendByte b s = .completed (bufAppend s (symbols zero one b)) := by
  simp only [sendByte, hf, hz, ho]
  exact pushBits_completed hf hl

/-- A byte sequence goes out as the concatenation of its bytes' symbols (R74, R99). -/
theorem sendBytes_completed {s : State} {zero one : List Byte} {bytes : List Byte} (hf : s.final = false)
    (hz : s.table .zero = some zero) (ho : s.table .one = some one)
    (hl : s.len + (bytes.flatMap (symbols zero one)).length ≤ Config.lenMax) :
    sendBytes bytes s = .completed (bufAppend s (bytes.flatMap (symbols zero one))) := by
  induction bytes generalizing s with
  | nil => simp [sendBytes]
  | cons b bytes ih =>
    rw [List.flatMap_cons, List.length_append] at hl
    simp only [sendBytes, sendByte_completed (b := b) hf hz ho (by omega), andThen_completed, List.flatMap_cons]
    rw [ih (by simpa using hf) (by simpa using hz) (by simpa using ho) (by simp only [bufAppend_len]; omega),
      bufAppend_bufAppend]

/-- Sending one byte `n` times is sending `n` copies of it. -/
theorem repeatRun_sendByte (b : Byte) (n : Nat) (s : State) :
    repeatRun (sendByte b) n s = sendBytes (List.replicate n b) s := by
  induction n generalizing s with
  | zero => rfl
  | succ n ih => simp only [repeatRun, List.replicate_succ, sendBytes]; congr; funext s; exact ih s

theorem sendDuration_eq {b : Byte} {d : Ratio} (h : durationOk d = true) (s : State) :
    sendDuration b d s = sendBytes (List.replicate (repeatCount d) b) s := by
  simp [sendDuration, h, repeatRun_sendByte]

theorem sendDuration_completed {s : State} {zero one : List Byte} {b : Byte} {d : Ratio} (hd : durationOk d = true)
    (hf : s.final = false) (hz : s.table .zero = some zero) (ho : s.table .one = some one)
    (hl : s.len + ((List.replicate (repeatCount d) b).flatMap (symbols zero one)).length ≤ Config.lenMax) :
    sendDuration b d s
      = .completed (bufAppend s ((List.replicate (repeatCount d) b).flatMap (symbols zero one))) := by
  rw [sendDuration_eq hd, sendBytes_completed hf hz ho hl]

theorem startCycles_eq : startCycles = 86 := by decide

theorem calibCount_eq : repeatCount Config.cfg.headerSeconds = 344 := by decide

theorem trailerCount_eq : repeatCount Config.cfg.endSeconds = 344 := by decide

/-! Issuing an operation. -/

/-- Everything an issued operation can do: stick after a refusal, be refused in `FAULT`, or run. -/
theorem operate_cases {body : State → Run} {s t : State} (h : operate body s = .next t) :
    s.refused = false ∧ ((s.phase = .fault ∧ t = setRefused .faulted s) ∨
      (s.phase ≠ .fault ∧ t = (body s).result)) := by
  unfold operate at h
  split at h
  · cases h
  · next hr =>
    refine ⟨by simpa using hr, ?_⟩
    split at h
    · next hp => exact .inl ⟨hp, (Host.Outcome.next.inj h).symm⟩
    · next hp => exact .inr ⟨hp, (Host.Outcome.next.inj h).symm⟩

theorem operate_ready {body : State → Run} {s : State} (h : s.ready) :
    operate body s = .next (body s).result := by
  simp [operate, h.1, h.2]

theorem operate_stuck {body : State → Run} {s : State} (h : s.refused = true) :
    operate body s = .fault .stuckAfterRefusal := by
  simp [operate, h]

/-! `BUF` as a memory. -/

/-- The cells of `BUF` are in canonical form in every state. -/
theorem bufCells_wf (s : State) : Memory.wf s.bufCells := by
  have h : s.bufCells.map Prod.fst = List.range s.buf.length := by
    simp [State.bufCells, List.map_map, Function.comp_def, List.zipIdx_map_snd, List.range_eq_range']
  rw [Memory.wf, h]
  exact List.pairwise_lt_range

/-- An appended byte sits past every byte already there, which stay where they are. -/
theorem bufRead_bufAppend {s : State} {x : List Byte} {a : Nat} (h : a < s.len) :
    (bufAppend s x).bufRead a = s.bufRead a := by
  simp only [State.bufRead, bufAppend_buf, replicateChannels_eq]
  exact List.getElem?_append_left h

end Sys2Proof.Machine
end

