-- ==== Sys2Proof/Laws/Exec.lean ====
section
/-! SUPPORT. Every operation but `RESET` is a body run by `operate`, so what `operate` can do is said once for all. -/

namespace Sys2Proof.Machine

/-- The body `operate` runs for each operation but `RESET`, which has none. -/
def bodyOf : Instr → State → Run
  | .reset => .completed
  | .synth t => fun s => .completed (synthesize t s)
  | .wbyte b => sendByte b
  | .wdur b d => sendDuration b d
  | .push seq => pushSamples seq
  | .finalize => fun s => .completed (serialize s)
  | .encode rom => runEncode rom
  | .stone => runStone
  | .calib => runCalib
  | .header image => runHeader image
  | .block image => runBlock image
  | .trailer => runTrailer
  | .page b => runPage b
  | .hcsum => runHcsum
  | .bcsum page data => runBcsum page data

theorem exec_operate {i : Instr} (h : i ≠ .reset) (s : State) : exec i s = operate (bodyOf i) s := by
  cases i <;> first | exact absurd rfl h | rfl

/-- An operation that may run gives the result of its body. -/
theorem exec_ready {i : Instr} {s : State} (h : i ≠ .reset) (hr : s.ready) :
    exec i s = .next (bodyOf i s).result := by
  rw [exec_operate h, operate_ready hr]

/-- Everything an operation but `RESET` can do where it gives a next state. -/
theorem exec_cases {i : Instr} {s t : State} (h : i ≠ .reset) (ht : exec i s = .next t) :
    s.refused = false ∧ ((s.phase = .fault ∧ t = setRefused .faulted s) ∨
      (s.phase ≠ .fault ∧ t = (bodyOf i s).result)) :=
  operate_cases (exec_operate h s ▸ ht)

end Sys2Proof.Machine
end

