-- ==== Sys2Proof/Laws/Frame.lean ====
section
/-! SUPPORT. What the sending operations and the steps of `ENCODE` do: when they complete, what a completed one did, and
what every one leaves alone. -/

namespace Sys2Proof.Machine

/-! Lengths (R92, R96, R98). -/

theorem table_zero {s : State} {v : Vector Byte 6} (h : s.tableZero = some v) : s.table .zero = some v.toList := by
  simp [State.table, h]

theorem table_one {s : State} {v : Vector Byte 10} (h : s.tableOne = some v) : s.table .one = some v.toList := by
  simp [State.table, h]

theorem table_start {s : State} {v : Vector Byte 51} (h : s.tableStart = some v) :
    s.table .start = some v.toList := by
  simp [State.table, h]

theorem popcount_le (b : Byte) : popcount b ≤ 8 := by
  have : popcount b ≤ (bitsMsbFirst b).length := List.count_le_length
  simpa [bitsMsbFirst] using this

theorem symbols_length {z o : List Byte} (hz : z.length = 6) (ho : o.length = 10) (b : Byte) :
    (symbols z o b).length = 48 + 4 * popcount b := by
  have h : ∀ bits : List Bool, (bits.flatMap fun bit => if bit then o else z).length
      = 6 * bits.length + 4 * bits.count true := by
    intro bits
    induction bits with
    | nil => rfl
    | cons b bits ih => cases b <;> simp [ih, hz, ho] <;> omega
  simp only [symbols, popcount]
  rw [h]
  simp [bitsMsbFirst]

theorem symbols_le {z o : List Byte} (hz : z.length = 6) (ho : o.length = 10) (b : Byte) :
    (symbols z o b).length ≤ 80 := by
  have := popcount_le b
  rw [symbols_length hz ho]
  omega

theorem flatMap_symbols_length {z o : List Byte} (hz : z.length = 6) (ho : o.length = 10) (l : List Byte) :
    (l.flatMap (symbols z o)).length = 48 * l.length + 4 * (l.map popcount).sum := by
  induction l with
  | nil => rfl
  | cons b l ih => simp [symbols_length hz ho, ih]; omega

theorem flatMap_symbols_le {z o : List Byte} (hz : z.length = 6) (ho : o.length = 10) (l : List Byte) :
    (l.flatMap (symbols z o)).length ≤ l.length * 80 := by
  induction l with
  | nil => simp
  | cons b l ih =>
    have := symbols_le hz ho b
    rw [List.flatMap_cons, List.length_append, List.length_cons]
    omega

theorem symbols_zero (z o : List Byte) : symbols z o 0 = (List.replicate 8 z).flatten := by
  simp [symbols, bitsMsbFirst, List.replicate]

theorem blockData_length (image : Image) (b : Fin 16) : (blockData image b).length = 256 := by
  have : image.toList.length = 4096 := by simp
  have := b.isLt
  simp only [blockData, Config.cfg, List.length_take, List.length_drop]
  omega

theorem blockRecord_length (image : Image) (b : Fin 16) : (blockRecord image b).length = 258 := by
  simp [blockRecord, blockData_length]

theorem blockRecords_length (image : Image) : (blockRecords image).length = 4128 := by
  simp [blockRecords, List.length_flatMap, blockRecord_length]

/-- The engine's running sum is the sum mod 256. -/
theorem byteSum_toNat (l : List Byte) : (byteSum l).toNat = (l.map BitVec.toNat).sum % 256 := by
  have h : ∀ a : Byte, (l.foldl (· + ·) a).toNat = (a.toNat + (l.map BitVec.toNat).sum) % 256 := by
    induction l with
    | nil => intro a; simp; omega
    | cons x l ih => intro a; rw [List.foldl_cons, ih]; simp [BitVec.toNat_add]; omega
  rw [byteSum, h]
  simp

/-! What a completed run did. -/

theorem andThen_inv {r : Run} {k : State → Run} {t : State} (h : r.andThen k = .completed t) :
    ∃ u, r = .completed u ∧ k u = .completed t := by
  cases r with
  | completed u => exact ⟨u, rfl, h⟩
  | refused why u => cases h

theorem result_inv {r : Run} {t : State} (h : r.result = t) (ht : t.refused = false) : r = .completed t := by
  cases r with
  | completed s => simpa using h
  | refused why s => subst h; cases ht

theorem pushSamples_inv {x : List Byte} {s t : State} (h : pushSamples x s = .completed t) : t = bufAppend s x := by
  unfold pushSamples at h
  split at h
  · cases h
  · split at h <;> cases h
    rfl

theorem repeatRun_pushSamples_inv {x : List Byte} {n : Nat} {s t : State}
    (h : repeatRun (pushSamples x) n s = .completed t) : t = bufAppend s (List.replicate n x).flatten := by
  induction n generalizing s with
  | zero => cases h; simp
  | succ n ih =>
    obtain ⟨u, h1, h2⟩ := andThen_inv h
    have := pushSamples_inv h1
    subst this
    simpa [List.replicate_succ] using ih h2

theorem pushBits_inv {z o : List Byte} {bits : List Bool} {s t : State} (h : pushBits z o bits s = .completed t) :
    t = bufAppend s (bits.flatMap fun bit => if bit then o else z) := by
  induction bits generalizing s with
  | nil => cases h; simp
  | cons b bits ih =>
    obtain ⟨u, h1, h2⟩ := andThen_inv h
    have := pushSamples_inv h1
    subst this
    simpa using ih h2

theorem sendByte_inv {b : Byte} {s t : State} (h : sendByte b s = .completed t) :
    ∃ z o, s.table .zero = some z ∧ s.table .one = some o ∧ t = bufAppend s (symbols z o b) := by
  unfold sendByte at h
  split at h
  · cases h
  · split at h
    · next z o hz ho => exact ⟨z, o, hz, ho, pushBits_inv h⟩
    · cases h

theorem sendBytes_inv {bytes : List Byte} {s t : State} {z o : List Byte} (hz : s.table .zero = some z)
    (ho : s.table .one = some o) (h : sendBytes bytes s = .completed t) :
    t = bufAppend s (bytes.flatMap (symbols z o)) := by
  induction bytes generalizing s with
  | nil => cases h; simp
  | cons b bytes ih =>
    obtain ⟨u, h1, h2⟩ := andThen_inv h
    obtain ⟨z', o', hz', ho', rfl⟩ := sendByte_inv h1
    rw [hz] at hz'
    rw [ho] at ho'
    cases hz'
    cases ho'
    simpa using ih (by simpa using hz) (by simpa using ho) h2

/-! Sends as one list of sink writes (R120), and where `LEN_MAX` cuts it off. -/

/-- Sink writes in order. -/
def pushAll : List (List Byte) → State → Run
  | [], s => .completed s
  | w :: ws, s => (pushSamples w s).andThen (pushAll ws)

theorem pushAll_append (ws vs : List (List Byte)) (s : State) :
    pushAll (ws ++ vs) s = (pushAll ws s).andThen (pushAll vs) := by
  induction ws generalizing s with
  | nil => rfl
  | cons w ws ih =>
    simp only [List.cons_append, pushAll, andThen_assoc]
    congr
    funext u
    exact ih u

theorem repeatRun_pushSamples_eq (w : List Byte) (n : Nat) (s : State) :
    repeatRun (pushSamples w) n s = pushAll (List.replicate n w) s := by
  induction n generalizing s with
  | zero => rfl
  | succ n ih => simp only [repeatRun, List.replicate_succ, pushAll]; congr; funext u; exact ih u

theorem pushBits_eq (z o : List Byte) (bits : List Bool) (s : State) :
    pushBits z o bits s = pushAll (bits.map fun bit => if bit then o else z) s := by
  induction bits generalizing s with
  | nil => rfl
  | cons b bits ih => simp only [pushBits, List.map_cons, pushAll]; congr; funext u; exact ih u

theorem sendBytes_eq {s : State} {z o : List Byte} (hf : s.final = false) (hz : s.table .zero = some z)
    (ho : s.table .one = some o) (bytes : List Byte) :
    sendBytes bytes s = pushAll (symbolWrites z o bytes) s := by
  induction bytes generalizing s with
  | nil => rfl
  | cons b bytes ih =>
    have hb : sendByte b s = pushBits z o (bitsMsbFirst b) s := by simp [sendByte, hf, hz, ho]
    rw [sendBytes, hb, symbolWrites, List.flatMap_cons, List.map_append, pushAll_append, ← pushBits_eq]
    cases h : pushBits z o (bitsMsbFirst b) s with
    | refused r u => rfl
    | completed u =>
      have := pushBits_inv h
      subst this
      exact ih (by simpa using hf) (by simpa using hz) (by simpa using ho)

/-- Writes that fit all go out. -/
theorem pushAll_completed {ws : List (List Byte)} {s : State} (hf : s.final = false)
    (hl : s.len + ws.flatten.length ≤ Config.lenMax) : pushAll ws s = .completed (bufAppend s ws.flatten) := by
  induction ws generalizing s with
  | nil => simp [pushAll]
  | cons w ws ih =>
    rw [List.flatten_cons, List.length_append] at hl
    rw [pushAll, pushSamples_completed hf (by omega), andThen_completed,
      ih (by simpa using hf) (by simp only [bufAppend_len]; omega), bufAppend_bufAppend, List.flatten_cons]

/-- Writes that do not fit go out as far as they do, and the first that does not is refused (R219). -/
theorem pushAll_full {ws : List (List Byte)} {s : State} (hf : s.final = false) (hs : s.len ≤ Config.lenMax)
    (hl : Config.lenMax < s.len + ws.flatten.length) :
    pushAll ws s = .refused .bufferFull (bufAppend s (fitting (Config.lenMax - s.len) ws)) := by
  induction ws generalizing s with
  | nil => simp at hl; omega
  | cons w ws ih =>
    rw [List.flatten_cons, List.length_append] at hl
    by_cases hw : s.len + w.length ≤ Config.lenMax
    · have hr : Config.lenMax - s.len - w.length = Config.lenMax - (bufAppend s w).len := by
        rw [bufAppend_len]; omega
      rw [pushAll, pushSamples_completed hf hw, andThen_completed,
        ih (by simpa using hf) (by simpa using hw) (by simp only [bufAppend_len]; omega), bufAppend_bufAppend,
        fitting, if_pos (by omega), hr]
    · have hc : Config.lenMax < s.len + w.length * Config.cfg.channels := by simp only [Config.cfg]; omega
      simp [pushAll, pushSamples, hf, hc, fitting, show ¬ w.length ≤ Config.lenMax - s.len by omega]

theorem symbolWrites_flatten (z o bytes : List Byte) :
    (symbolWrites z o bytes).flatten = bytes.flatMap (symbols z o) := by
  rw [symbolWrites, ← List.flatMap_def, List.flatMap_assoc]
  rfl

/-! The steps of `ENCODE`. -/

/-- `CALIB` sends 344 calibration bytes and the sync byte (R175). -/
theorem runCalib_eq (s : State) : runCalib s = sendBytes (List.replicate 344 (0x55 : Byte) ++ [(0x54 : Byte)]) s := by
  have h : ∀ (l : List Byte) s,
      (sendBytes l s).andThen (sendByte Config.cfg.syncByte) = sendBytes (l ++ [0x54]) s := by
    intro l
    induction l with
    | nil => intro s; show sendByte 0x54 s = (sendByte 0x54 s).andThen _; cases sendByte 0x54 s <;> rfl
    | cons b l ih => intro s; simp only [sendBytes, List.cons_append, andThen_assoc]; congr; funext s; exact ih s
  rw [runCalib, sendDuration_eq (by decide), calibCount_eq]
  exact h _ s

/-- `TRAILER` sends 344 zero bytes (R181). -/
theorem runTrailer_eq (s : State) : runTrailer s = sendBytes (List.replicate 344 0) s := by
  rw [runTrailer, sendDuration_eq (by decide), trailerCount_eq]
  rfl

/-- What a completed `HEADER` leaves (R176). -/
def afterHeader (image : Image) (z o : List Byte) (s : State) : State :=
  bufAppend (emitDiag (headerDiag (headerOf image)) (writeCsum (headerOf image).checksum (writeHdr (headerOf image) s)))
    ((headerBytes (headerOf image)).flatMap (symbols z o))

theorem runHeader_completed {s : State} {image : Image} {z o : List Byte} (hf : s.final = false)
    (hz : s.table .zero = some z) (ho : s.table .one = some o)
    (hl : s.len + ((headerBytes (headerOf image)).flatMap (symbols z o)).length ≤ Config.lenMax) :
    runHeader image s = .completed (afterHeader image z o s) := by
  rw [runHeader, sendBytes_completed (zero := z) (one := o) (by simpa using hf) (by simpa using hz)
    (by simpa using ho) (by simpa using hl), afterHeader]

/-- What a completed `BLOCK` of index `b` leaves (R178). -/
def afterBlock (image : Image) (z o : List Byte) (s : State) (b : Fin 16) : State :=
  writeBlk (b.val + 1) (bufAppend (emitDiag [blockDiag image b]
    (writeCsum (blockChecksum (pageNumber b) (blockData image b)) (writePage (pageNumber b) s)))
    ((blockRecord image b).flatMap (symbols z o)))

theorem sendBlock_completed {s : State} {image : Image} {b : Fin 16} {z o : List Byte} (hf : s.final = false)
    (hz : s.table .zero = some z) (ho : s.table .one = some o)
    (hl : s.len + ((blockRecord image b).flatMap (symbols z o)).length ≤ Config.lenMax) :
    sendBlock image b s = .completed (afterBlock image z o s b) := by
  rw [sendBlock, sendBytes_completed (zero := z) (one := o) (by simpa using hf) (by simpa using hz)
    (by simpa using ho) (by simpa using hl)]
  rfl

/-- What every send and every step of `ENCODE` leaves alone, refused or not; `BUF` and `DIAG` only grow (R42, R44). -/
structure Extends (s u : State) : Prop where
  phase : u.phase = s.phase
  final : u.final = s.final
  refused : u.refused = s.refused
  out : u.out = s.out
  report : u.report = s.report
  pending : u.pending = s.pending
  driven : u.driven = s.driven
  freeIx : u.freeIx = s.freeIx
  buf : s.buf <+: u.buf
  buf_final : s.final = true → u.buf = s.buf
  diag : s.diag <+: u.diag

theorem Extends.refl (s : State) : Extends s s :=
  ⟨rfl, rfl, rfl, rfl, rfl, rfl, rfl, rfl, List.prefix_rfl, fun _ => rfl, List.prefix_rfl⟩

theorem Extends.trans {s u v : State} (h : Extends s u) (k : Extends u v) : Extends s v where
  phase := k.phase.trans h.phase
  final := k.final.trans h.final
  refused := k.refused.trans h.refused
  out := k.out.trans h.out
  report := k.report.trans h.report
  pending := k.pending.trans h.pending
  driven := k.driven.trans h.driven
  freeIx := k.freeIx.trans h.freeIx
  buf := h.buf.trans k.buf
  buf_final := fun f => (k.buf_final (h.final.trans f)).trans (h.buf_final f)
  diag := h.diag.trans k.diag

theorem Appends.extends_last {s : State} {r : Run} (h : Appends s r) : Extends s r.last := by
  obtain ⟨x, hx, hf, _⟩ := h
  rw [hx]
  exact ⟨rfl, rfl, rfl, rfl, rfl, rfl, rfl, rfl, by simp, fun h => by simp [hf h], List.prefix_rfl⟩

theorem extends_andThen {s : State} {r : Run} {k : State → Run} (hr : Extends s r.last)
    (hk : ∀ u, Extends u (k u).last) : Extends s (r.andThen k).last :=
  andThen_last (P := Extends s) hr fun u hu => hu.trans (hk u)

theorem synthesize_extends (t : Tone) (s : State) : Extends s (synthesize t s) := by
  cases t <;> exact ⟨rfl, rfl, rfl, rfl, rfl, rfl, rfl, rfl, by simp, fun h => by simp, by simp⟩

theorem runHeader_extends (image : Image) (s : State) : Extends s (runHeader image s).last := by
  refine Extends.trans ?_ (sendBytes_appends _ _).extends_last
  exact ⟨rfl, rfl, rfl, rfl, rfl, rfl, rfl, rfl, by simp, fun h => by simp, by simp⟩

theorem runBlock_extends (image : Image) (s : State) : Extends s (runBlock image s).last := by
  unfold runBlock
  split
  · refine extends_andThen ?_ fun u => ?_
    · refine Extends.trans ?_ (sendBytes_appends _ _).extends_last
      exact ⟨rfl, rfl, rfl, rfl, rfl, rfl, rfl, rfl, by simp, fun h => by simp, by simp⟩
    · exact ⟨rfl, rfl, rfl, rfl, rfl, rfl, rfl, rfl, by simp, fun h => by simp, by simp⟩
  · exact Extends.refl s

end Sys2Proof.Machine
end

