-- ==== Sys2Proof/Laws/PerInstr.lean ====
section
/-! SUPPORT. For every operation with every operand: its encoding is read back, and accepted from the one who may drive it (R111, R113). -/

namespace Sys2Proof.Laws.RoundTrip

/-- Decoding the encoded operation gives it back, and it is accepted from the one who may drive it. -/
def Statement (i : Instr) : Prop := decode (encode i) = .ok i ∧ Machine.accept i.kind.issuer (encode i) = .ok i

theorem reset : Statement .reset := ⟨rfl, rfl⟩
theorem synth (t : Tone) : Statement (.synth t) := by cases t <;> exact ⟨rfl, rfl⟩
theorem wbyte (b : Byte) : Statement (.wbyte b) := ⟨rfl, rfl⟩
theorem wdur (b : Byte) (d : Ratio) : Statement (.wdur b d) := ⟨rfl, rfl⟩
theorem push (seq : List Byte) : Statement (.push seq) := ⟨rfl, rfl⟩
theorem finalize : Statement .finalize := ⟨rfl, rfl⟩
theorem encode (rom : List Byte) : Statement (.encode rom) := ⟨rfl, rfl⟩
theorem stone : Statement .stone := ⟨rfl, rfl⟩
theorem calib : Statement .calib := ⟨rfl, rfl⟩
theorem header (image : Image) : Statement (.header image) := ⟨rfl, rfl⟩
theorem block (image : Image) : Statement (.block image) := ⟨rfl, rfl⟩
theorem trailer : Statement .trailer := ⟨rfl, rfl⟩
theorem page (b : Nat) : Statement (.page b) := ⟨rfl, rfl⟩
theorem hcsum : Statement .hcsum := ⟨rfl, rfl⟩
theorem bcsum (page : Byte) (data : Vector Byte 256) : Statement (.bcsum page data) := ⟨rfl, rfl⟩

end Sys2Proof.Laws.RoundTrip
end

