-- ==== Sys2Proof/Laws/Sine.lean ====
section
/-! SUPPORT. A rational series near the sine on a whole turn, for holding a table of samples against its formula. -/

namespace Sys2Proof.Machine

/-- The sine series up to the term of degree 29. -/
def sinSeries (q : ℚ) : ℚ :=
  ((List.range 15).map fun k => (-1) ^ k * q ^ (2 * k + 1) / ((2 * k + 1).factorial : ℚ)).sum

/-- The sine series is the imaginary part of the exponential's. -/
theorem sinSeries_im (q : ℚ) :
    (∑ m ∈ Finset.range 30, ((q : ℂ) * Complex.I) ^ m / (m.factorial : ℂ)).im = (sinSeries q : ℝ) := by
  have h : ∀ n, (∑ m ∈ Finset.range (2 * n), ((q : ℂ) * Complex.I) ^ m / (m.factorial : ℂ)).im
      = ((((List.range n).map fun k => (-1) ^ k * q ^ (2 * k + 1) / ((2 * k + 1).factorial : ℚ)).sum : ℚ) : ℝ) := by
    intro n
    induction n with
    | zero => simp
    | succ n ih =>
      have he : ((q : ℂ) * Complex.I) ^ (2 * n) / ((2 * n).factorial : ℂ)
          = (((-1) ^ n * (q : ℝ) ^ (2 * n) / ((2 * n).factorial : ℝ) : ℝ) : ℂ) := by
        rw [mul_pow, pow_mul Complex.I, Complex.I_sq]; push_cast; ring
      have ho : ((q : ℂ) * Complex.I) ^ (2 * n + 1) / ((2 * n + 1).factorial : ℂ)
          = (((-1) ^ n * (q : ℝ) ^ (2 * n + 1) / ((2 * n + 1).factorial : ℝ) : ℝ) : ℂ) * Complex.I := by
        rw [mul_pow, pow_succ Complex.I, pow_mul Complex.I, Complex.I_sq]; push_cast; ring
      rw [show 2 * (n + 1) = 2 * n + 1 + 1 by ring, Finset.sum_range_succ, Finset.sum_range_succ, he, ho,
        Complex.add_im, Complex.add_im, ih, Complex.ofReal_im, Complex.im_ofReal_mul, Complex.I_im, List.range_succ]
      simp
  exact h 15

/-- On a whole turn the series is within a millionth of the sine. -/
theorem abs_sin_sub_sinSeries_le {q : ℚ} (h0 : 0 ≤ q) (h7 : q ≤ 7) :
    |Real.sin q - (sinSeries q : ℝ)| ≤ 1 / 1000000 := by
  have h0' : (0 : ℝ) ≤ q := by exact_mod_cast h0
  have h7' : (q : ℝ) ≤ 7 := by exact_mod_cast h7
  have hc : (q : ℂ) = ((q : ℝ) : ℂ) := by push_cast; rfl
  have hq : ‖(q : ℂ) * Complex.I‖ = (q : ℝ) := by
    rw [norm_mul, Complex.norm_I, mul_one, hc, Complex.norm_of_nonneg h0']
  have hb := Complex.exp_bound' (x := (q : ℂ) * Complex.I) (n := 30) (by rw [hq]; norm_num; linarith)
  rw [hq] at hb
  have him := (Complex.abs_im_le_norm _).trans hb
  rw [Complex.sub_im, sinSeries_im, hc, Complex.exp_ofReal_mul_I_im] at him
  refine him.trans ?_
  have : (q : ℝ) ^ 30 ≤ 7 ^ 30 := pow_le_pow_left₀ h0' h7' 30
  have h30 : ((30).factorial : ℝ) = 265252859812191058636308480000000 := by norm_num [Nat.factorial]
  rw [h30, div_mul_eq_mul_div, div_le_div_iff₀ (by norm_num) (by norm_num)]
  linarith

end Sys2Proof.Machine
end

