-- ==== Sys2Proof/Tests/Slice0.lean ====
section
/-! SUPPORT. Tests of one step each, the expected values from the vectors of spec/95_test_vectors.md (V, P) or from the
encodings of 30_encoding.md; and one witness for the hypotheses of every statement. -/

namespace Sys2Proof.Machine.Tests

/-! Helpers. -/

/-- The operation gave a next state, and `p` holds of it. -/
def nextIs (o : Host.Outcome State Fault Refusal) (p : State → Bool) : Bool :=
  match o with
  | .next s => p s
  | .fault _ => false
  | .refused _ => false

/-- The machine stopped, for the one reason there is. -/
def stopped (o : Host.Outcome State Fault Refusal) : Bool :=
  match o with
  | .next _ => false
  | .fault .stuckAfterRefusal => true
  | .refused _ => false

/-- Reset, then `SYNTH ZERO`, `SYNTH ONE`: the start state of V12. -/
def tabled : State := { State.reset with tableZero := some zeroTableValues, tableOne := some oneTableValues }

/-- As `tabled`, the start table valid too. -/
def allTabled : State := { tabled with tableStart := some startTableValues }

/-- A finalized empty buffer. -/
def closed : State := { tabled with final := true, out := some (container []) }

/-- After `RomSizeFault(2048)` (V51). -/
def faulted : State := { State.reset with phase := .fault, report := some (.romSizeFault 2048) }

/-- After a refusal. -/
def refusedState : State := { State.reset with refused := true, report := some (.refusal .tableInvalid) }

/-- A conversion has run. -/
def converted : State := { allTabled with phase := .done, blk := 16 }

/-- A header whose seven bytes are those of V21. -/
def sampleHeader : HeaderRecord := ⟨0x34, 0x12, 0x1d, 0x10, 0x00, 0x00, 0xc3, 0x01⟩

/-- An image of 4096 zero bytes. -/
def zeroImage : Image := Vector.replicate 4096 0

/-- A state whose buffer holds `n` samples, the two bit tables valid. -/
def filled (n : Nat) : State := { tabled with buf := List.replicate n 0x80 }

theorem filled_len (n : Nat) : (filled n).len = n := by simp [State.len, filled]

theorem tabled_ready : tabled.ready := ⟨rfl, by decide⟩

theorem filled_ready (n : Nat) : (filled n).ready := ⟨rfl, by simp [filled, tabled, State.reset]⟩

/-! Well-formed operands: one ill-formed term for each check, refused by it. -/

theorem test_wf_duration_zero_denominator : Instr.wellFormed (.wdur 0x00 ⟨1, 0⟩) = false := by decide
theorem test_wf_duration_negative : Instr.wellFormed (.wdur 0x00 ⟨-1, 2⟩) = false := by decide
theorem test_wf_duration_zero : Instr.wellFormed (.wdur 0x00 ⟨0, 1⟩) = true := by decide
theorem test_wf_rom_short : Instr.wellFormed (.encode [0x00]) = false := by decide
theorem test_wf_page_16 : Instr.wellFormed (.page 16) = false := by decide
theorem test_wf_page_15 : Instr.wellFormed (.page 15) = true := by decide

/-! Decoding: selector words and port values written out from R111 and R113. -/

theorem test_decode_reset : decode { op := 0b0000 } = .ok .reset := rfl
theorem test_decode_synth_start : decode { op := 0b0001, tone := 0b00 } = .ok (.synth .start) := rfl
theorem test_decode_synth_zero : decode { op := 0b0001, tone := 0b01 } = .ok (.synth .zero) := rfl
theorem test_decode_synth_one : decode { op := 0b0001, tone := 0b10 } = .ok (.synth .one) := rfl
theorem test_decode_wbyte : decode { op := 0b0010, byte := 0x54 } = .ok (.wbyte 0x54) := rfl
theorem test_decode_wdur :
    decode { op := 0b0011, byte := 0xa5, duration := ⟨1, 100⟩ } = .ok (.wdur 0xa5 ⟨1, 100⟩) := rfl
theorem test_decode_push : decode { op := 0b0100, seq := [0x80, 0xed] } = .ok (.push [0x80, 0xed]) := rfl
theorem test_decode_finalize : decode { op := 0b0101 } = .ok .finalize := rfl
theorem test_decode_encode : decode { op := 0b0110, rom := [0x12] } = .ok (.encode [0x12]) := rfl
theorem test_decode_stone : decode { op := 0b0111 } = .ok .stone := rfl
theorem test_decode_calib : decode { op := 0b1000 } = .ok .calib := rfl
theorem test_decode_header : decode { op := 0b1001, image := zeroImage } = .ok (.header zeroImage) := rfl
theorem test_decode_block : decode { op := 0b1010, image := zeroImage } = .ok (.block zeroImage) := rfl
theorem test_decode_trailer : decode { op := 0b1011 } = .ok .trailer := rfl
theorem test_decode_page : decode { op := 0b1100, index := 7 } = .ok (.page 7) := rfl
theorem test_decode_hcsum : decode { op := 0b1101 } = .ok .hcsum := rfl
theorem test_decode_bcsum (data : Vector Byte 256) :
    decode { op := 0b1110, page := 0x1d, data := data } = .ok (.bcsum 0x1d data) := rfl
theorem test_decode_reserved_selector : decode { op := 0b1111 } = .error .reservedSelector := rfl
theorem test_decode_reserved_tone : decode { op := 0b0001, tone := 0b11 } = .error .reservedTone := rfl

/-- The decoder reads every row of the table, and nothing from the reserved code or beyond four bits. -/
theorem test_table_rows_decode : (List.range 18).map (fun w => (decodeTableWord 4 w).isSome)
    = List.replicate 15 true ++ [false, false, false] := by decide

/-- Every row runs as the first operation after reset. -/
theorem test_table_rows_run : ∀ w < 15, nextIs (step (State.reset.withFetchWord 4 w)) (fun _ => true) = true := by
  decide

/-! The interface. -/

/-- V57 -/
theorem test_selector_f_refused :
    nextIs (step (State.reset.withFetchWord 4 15)) (fun s => s.report == some (.refusal .reservedOp)) = true := by decide

/-- V11 -/
theorem test_tone_3_refused : nextIs (step { State.reset with pending := [{ op := 0x1, tone := 3 }] })
    (fun s => s.report == some (.refusal .reservedOp)) = true := by decide

/-- V58 -/
theorem test_block_from_host_refused : nextIs (step { State.reset with pending := [{ op := 0xa }] })
    (fun s => s.report == some (.refusal .notHostOp) && s.refused) = true := by decide

/-- U10 -/
theorem test_stuck_after_refusal : stopped (step (refusedState.withFetchWord 4 5)) = true := by decide

/-- U10: a command the interface would turn away is stuck too -/
theorem test_turned_away_after_refusal : stopped (step (refusedState.withFetchWord 4 15)) = true := by decide

/-- R171: a step the sequencer drives runs once; the step wires are at rest after it, and the host cannot drive another -/
theorem test_steps_never_follow_each_other :
    nextIs (step ({ allTabled with pending := [{ op := 0x8 }] }.withFetchWord 4 0xd)) (fun s => s.driven.isNone
      && nextIs (step s) (fun t => t.report == some (.refusal .notHostOp))) = true := by decide

/-! RESET. -/

/-- V54 -/
theorem test_reset_leaves_fault : exec .reset faulted = .next State.reset := rfl

theorem test_reset_after_refusal : exec .reset refusedState = .next State.reset := rfl

/-! SYNTH. -/

/-- V1 -/
theorem test_synth_zero : nextIs (exec (.synth .zero) State.reset)
    (fun s => s.table .zero == some [0x80, 0xed, 0xed, 0x80, 0x13, 0x13] && !s.tvalid .one) = true := by decide

/-- V3 -/
theorem test_synth_start : nextIs (exec (.synth .start) State.reset)
    (fun s => s.table .start == some
      [0x80, 0x8f, 0x9f, 0xad, 0xbb, 0xc8, 0xd5, 0xdf, 0xe9, 0xf0, 0xf6, 0xfb, 0xfd, 0xfd, 0xfc, 0xf9, 0xf4, 0xed, 0xe4,
       0xda, 0xcf, 0xc2, 0xb4, 0xa6, 0x97, 0x88, 0x78, 0x69, 0x5a, 0x4c, 0x3e, 0x31, 0x26, 0x1c, 0x13, 0x0c, 0x07, 0x04,
       0x03, 0x03, 0x05, 0x0a, 0x10, 0x17, 0x21, 0x2b, 0x38, 0x45, 0x53, 0x61, 0x71]) = true := by decide

/-! WBYTE. -/

/-- V12d, written out -/
theorem test_wbyte_54 : nextIs (exec (.wbyte 0x54) tabled) (fun s => s.buf ==
    [0x80, 0xed, 0xed, 0x80, 0x13, 0x13, 0x80, 0xca, 0xf7, 0xf7, 0xca, 0x80, 0x36, 0x09, 0x09, 0x36, 0x80, 0xed, 0xed,
     0x80, 0x13, 0x13, 0x80, 0xca, 0xf7, 0xf7, 0xca, 0x80, 0x36, 0x09, 0x09, 0x36, 0x80, 0xed, 0xed, 0x80, 0x13, 0x13,
     0x80, 0xca, 0xf7, 0xf7, 0xca, 0x80, 0x36, 0x09, 0x09, 0x36, 0x80, 0xed, 0xed, 0x80, 0x13, 0x13, 0x80, 0xed, 0xed,
     0x80, 0x13, 0x13]) = true := by decide

/-- V19a, V19b -/
theorem test_wbyte_refused :
    nextIs (exec (.wbyte 0x00) State.reset) (fun s => s.report == some (.refusal .tableInvalid) && s.len == 0) = true
    ∧ nextIs (exec (.wbyte 0x00) closed) (fun s => s.report == some (.refusal .bufferFinal)) = true := by decide

/-! WDUR. -/

/-- V14 to V15i -/
theorem test_repeat_counts :
    [(⟨0, 1⟩ : Ratio), ⟨1, 1000⟩, ⟨16, 11025⟩, ⟨1, 689⟩, ⟨1, 100⟩, ⟨1, 10⟩, ⟨1, 2⟩, ⟨1, 1⟩, ⟨2, 1⟩, ⟨16, 1⟩].map repeatCount
      = [0, 0, 1, 1, 6, 68, 344, 689, 1378, 11025] := by decide

/-- V18, V19c -/
theorem test_wdur_corners :
    nextIs (exec (.wdur 0x00 ⟨-1, 2⟩) State.reset) (fun s => s.report == some (.refusal .badOperand)) = true
    ∧ nextIs (exec (.wdur 0x00 ⟨0, 1⟩) State.reset) (fun s => !s.refused && s.len == 0) = true := by decide

/-! PUSH and FINALIZE. -/

/-- R210's example, V46 -/
theorem test_push : nextIs (exec (.push [0x80, 0xed]) State.reset) (fun s => s.buf == [0x80, 0xed] && s.len == 2) = true
    ∧ nextIs (exec (.push []) State.reset) (fun s => s.len == 0 && !s.refused) = true := by decide

/-- V48 -/
theorem test_push_final : nextIs (exec (.push [0x00]) closed) (fun s => s.report == some (.refusal .bufferFinal)) = true := by
  decide

/-- V44 -/
theorem test_finalize_empty : nextIs (exec .finalize State.reset) (fun s => s.final && s.out == some
    [0x52, 0x49, 0x46, 0x46, 0x24, 0x00, 0x00, 0x00, 0x57, 0x41, 0x56, 0x45, 0x66, 0x6d, 0x74, 0x20, 0x10, 0x00, 0x00, 0x00,
     0x01, 0x00, 0x01, 0x00, 0x44, 0xac, 0x00, 0x00, 0x44, 0xac, 0x00, 0x00, 0x01, 0x00, 0x08, 0x00, 0x64, 0x61, 0x74, 0x61,
     0x00, 0x00, 0x00, 0x00]) = true := by decide

/-- V49, V50: the size fields -/
theorem test_size_fields : le32 (36 + 241982) = [0x62, 0xb1, 0x03, 0x00] ∧ le32 241982 = [0x3e, 0xb1, 0x03, 0x00]
    ∧ le32 (36 + Config.lenMax) = [0xff, 0xff, 0xff, 0xff] ∧ le32 Config.lenMax = [0xdb, 0xff, 0xff, 0xff] := by decide

/-! PAGE, HCSUM, BCSUM. -/

/-- V27 -/
theorem test_pages : (List.finRange 16).map pageNumber
    = [0x01, 0x05, 0x09, 0x0d, 0x11, 0x15, 0x19, 0x1d, 0x02, 0x06, 0x0a, 0x0e, 0x12, 0x16, 0x1a, 0x1e] := by decide

/-- V28, V29 -/
theorem test_page : nextIs (exec (.page 8) State.reset) (fun s => s.page == some 0x02) = true
    ∧ nextIs (exec (.page 16) State.reset) (fun s => s.report == some (.refusal .outOfDomain)) = true := by decide

/-- V20 to V26 -/
theorem test_header_checksums :
    [((0x00 : Byte), (0x00 : Byte)), (0x34, 0x12), (0x00, 0xf0), (0xff, 0xff), (0x64, 0x00), (0x65, 0x00), (0x80, 0x80)].map
      (fun a => headerChecksum { sampleHeader with addressLow := a.1, addressHigh := a.2 })
      = [0x64, 0x1e, 0x74, 0x66, 0x00, 0xff, 0x64] := by decide

/-- V21 through the operation -/
theorem test_hcsum : nextIs (exec .hcsum { State.reset with hdr := some sampleHeader })
    (fun s => s.csum == some 0x1e) = true := by decide

/-- V33, and V34's wrap: the engine's arithmetic on short data -/
theorem test_block_checksum : blockChecksum 0x1d [0x80] = 0xb8 ∧ blockChecksum 0x02 [0x54] = 0xff
    ∧ blockChecksum 0x1e [0x34, 0x12, 0x00, 0x00] = 0xf1 := by decide

/-- V30 through the operation -/
theorem test_bcsum : nextIs (exec (.bcsum 0x01 (Vector.replicate 256 0)) State.reset)
    (fun s => s.csum == some 0x54) = true := by decide +kernel

/-! ENCODE and its steps. -/

/-- V51, V56 -/
theorem test_encode_short :
    nextIs (exec (.encode [0x00]) State.reset)
      (fun s => s.phase == .fault && s.report == some (.romSizeFault 1) && s.len == 0 && s.diag.isEmpty && !s.tvalid .zero
        && !s.refused) = true
    ∧ nextIs (exec (.encode [0x00]) closed) (fun s => s.report == some (.refusal .bufferFinal) && s.phase == .idle) = true := by
  decide

/-- V55 -/
theorem test_encode_again : nextIs (exec (.encode []) converted)
    (fun s => s.report == some (.refusal .alreadyEncoded) && s.phase == .done) = true := by decide

/-- V53 -/
theorem test_finalize_faulted :
    nextIs (exec .finalize faulted) (fun s => s.report == some (.refusal .faulted) && s.out.isNone) = true := by decide

/-- V37 -/
theorem test_stone : nextIs (exec .stone allTabled) (fun s => s.len == 4386 && s.buf.take 4 == [0x80, 0x8f, 0x9f, 0xad]
    && s.buf.drop 4383 == [0x53, 0x61, 0x71]) = true := by decide +kernel

/-- V38, R175's example: the first bytes of the calibration, as far as one byte shows them -/
theorem test_calib_bytes : runCalib tabled = sendBytes (List.replicate 344 0x55 ++ [0x54]) tabled := runCalib_eq tabled

/-- V39 -/
theorem test_header : nextIs (exec (.header ((zeroImage.set 4092 0x34).set 4093 0x12)) tabled)
    (fun s => s.len == 460 && s.hdr == some ⟨0x34, 0x12, 0x1d, 0x10, 0x1e, 0x00, 0xc3, 0x01⟩ && s.csum == some 0x1e
      && s.diag == [.address 0x1234, .bankConfig 0x1d, .blockCount 0x10, .multiload 0x00, .loadSpeed 0x01c3]) = true := by
  decide +kernel

/-- V40's page and checksum, before the tables are valid: what the lines before the refusal did stays (log entry 9) -/
theorem test_block_refused : nextIs (exec (.block zeroImage) State.reset)
    (fun s => s.page == some 0x01 && s.csum == some 0x54 && s.diag == [.blockChecksum 0 0x54] && s.len == 0 && s.blk == 0
      && s.report == some (.refusal .tableInvalid)) = true := by decide +kernel

/-- V41 -/
theorem test_trailer_bytes : runTrailer tabled = sendBytes (List.replicate 344 0x00) tabled := runTrailer_eq tabled

/-! Witnesses: the hypotheses of each statement are met together, at the boundaries where it has some. -/

theorem witness_DecodeEncodeAgree : decode { op := 0x3, byte := 1 } = .ok (.wdur 1 ⟨0, 1⟩) := rfl

theorem witness_OnlyReservedCodesRejected :
    ((0xf : BitVec 4) = 0xf ∨ ((0xf : BitVec 4) = 0x1 ∧ (0 : BitVec 2) = 3))
    ∧ ¬ ((0xe : BitVec 4) = 0xf ∨ ((0xe : BitVec 4) = 0x1 ∧ (3 : BitVec 2) = 3))
    ∧ ((0x1 : BitVec 4) = 0xf ∨ ((0x1 : BitVec 4) = 0x1 ∧ (3 : BitVec 2) = 3))
    ∧ ¬ ((0x1 : BitVec 4) = 0xf ∨ ((0x1 : BitVec 4) = 0x1 ∧ (2 : BitVec 2) = 3)) := by decide

theorem witness_StepRunsTheDecodedOperation :
    ∃ (s t : State) (c d : Command), decode c = .ok (.synth .zero) ∧ s.driven = none ∧ s.pending = [c]
      ∧ (Instr.synth .zero).kind = .host ∧ decode d = .ok .stone ∧ t.driven = some d :=
  ⟨{ State.reset with pending := [{ op := 1, tone := 1 }] }, { State.reset with driven := some { op := 7 } },
    { op := 1, tone := 1 }, { op := 7 }, rfl, rfl, rfl, rfl, rfl, rfl⟩

theorem witness_IdleBlockHoldsItsState : State.reset.driven = none ∧ State.reset.pending = [] := ⟨rfl, rfl⟩

theorem witness_InterfaceTurnsCommandsAway_reserved :
    ∃ (s : State) (c : Command), s.driven = none ∧ s.pending = [c] ∧ s.refused = false ∧ c.op = 0xf :=
  ⟨{ State.reset with pending := [{ op := 0xf }] }, { op := 0xf }, rfl, rfl, rfl, rfl⟩

theorem witness_InterfaceTurnsCommandsAway_tone :
    ∃ (s : State) (c : Command), s.driven = none ∧ s.pending = [c] ∧ s.refused = false ∧ c.op = 0x1 ∧ c.tone = 3 :=
  ⟨{ State.reset with pending := [{ op := 1, tone := 3 }] }, { op := 1, tone := 3 }, rfl, rfl, rfl, rfl, rfl⟩

theorem witness_InterfaceTurnsCommandsAway_lowest :
    ∃ (s : State) (c : Command), s.driven = none ∧ s.pending = [c] ∧ s.refused = false ∧ 0x7 ≤ c.op ∧ c.op ≤ 0xe
      ∧ c.op = 0x7 :=
  ⟨{ State.reset with pending := [{ op := 7 }] }, { op := 7 }, rfl, rfl, rfl, by decide, by decide, rfl⟩

theorem witness_InterfaceTurnsCommandsAway_highest :
    ∃ (s : State) (c : Command), s.driven = none ∧ s.pending = [c] ∧ s.refused = false ∧ 0x7 ≤ c.op ∧ c.op ≤ 0xe
      ∧ c.op = 0xe :=
  ⟨{ State.reset with pending := [{ op := 0xe }] }, { op := 0xe }, rfl, rfl, rfl, by decide, by decide, rfl⟩

theorem witness_ready : State.reset.ready ∧ converted.ready ∧ closed.ready :=
  ⟨⟨rfl, by decide⟩, ⟨rfl, by decide⟩, ⟨rfl, by decide⟩⟩

theorem witness_TablesRoundTheSine : 50 < (toneValues .start).length ∧ 5 < (toneValues .zero).length
    ∧ 9 < (toneValues .one).length := by decide

theorem witness_WbyteSendsEightSymbols :
    (filled (Config.lenMax - 80)).ready ∧ (filled (Config.lenMax - 80)).final = false
      ∧ (filled (Config.lenMax - 80)).tableZero = some zeroTableValues
      ∧ (filled (Config.lenMax - 80)).tableOne = some oneTableValues
      ∧ (filled (Config.lenMax - 80)).len + 80 ≤ Config.lenMax :=
  ⟨filled_ready _, rfl, rfl, rfl, by rw [filled_len]; decide⟩

theorem witness_WbyteLengthLaw : ∃ t, exec (.wbyte 0xff) tabled = .next t ∧ t.refused = false := ⟨_, rfl, rfl⟩

theorem witness_WbyteRefusals : (closed.ready ∧ closed.final = true)
    ∧ (State.reset.ready ∧ State.reset.final = false ∧ State.reset.tableZero = none ∧ State.reset.tableOne = none)
    ∧ ((filled (Config.lenMax - 47)).ready ∧ (filled (Config.lenMax - 47)).final = false
      ∧ (filled (Config.lenMax - 47)).tableZero = some zeroTableValues
      ∧ (filled (Config.lenMax - 47)).tableOne = some oneTableValues
      ∧ (filled (Config.lenMax - 47)).len ≤ Config.lenMax
      ∧ Config.lenMax < (filled (Config.lenMax - 47)).len + 48 + 4 * popcount 0x00) :=
  ⟨⟨⟨rfl, by decide⟩, rfl⟩, ⟨⟨rfl, by decide⟩, rfl, rfl, rfl⟩, filled_ready _, rfl, rfl, rfl,
    by rw [filled_len]; decide, by rw [filled_len]; decide⟩

/-- With room for 47 bytes a zero byte sends seven of its eight symbols: R210 and R219 by hand. -/
theorem test_fitting : fitting 47 (symbolWrites (toneValues .zero) (toneValues .one) [0x00])
    = (List.replicate 7 (toneValues .zero)).flatten := by decide

theorem witness_RepeatCountIsFloor : (⟨16, 11025⟩ : Ratio).den ≠ 0 ∧ 0 ≤ (⟨16, 11025⟩ : Ratio).num := by decide

theorem witness_WdurRepeatsTheByte :
    (filled (Config.lenMax - 80)).ready ∧ (filled (Config.lenMax - 80)).final = false
      ∧ (filled (Config.lenMax - 80)).tableZero = some zeroTableValues
      ∧ (filled (Config.lenMax - 80)).tableOne = some oneTableValues ∧ repeatCount ⟨16, 11025⟩ = 1
      ∧ (filled (Config.lenMax - 80)).len + 80 * repeatCount ⟨16, 11025⟩ ≤ Config.lenMax :=
  ⟨filled_ready _, rfl, rfl, rfl, by decide, by rw [filled_len]; decide⟩

theorem witness_WdurOfCountZeroChangesNothing :
    closed.ready ∧ 11025 * (⟨0, 1⟩ : Ratio).num < 16 * ((⟨0, 1⟩ : Ratio).den : Int)
      ∧ 11025 * (⟨1, 690⟩ : Ratio).num < 16 * ((⟨1, 690⟩ : Ratio).den : Int)
      ∧ ¬ 11025 * (⟨16, 11025⟩ : Ratio).num < 16 * ((⟨16, 11025⟩ : Ratio).den : Int) :=
  ⟨⟨rfl, by decide⟩, by decide, by decide, by decide⟩

theorem witness_WdurRefusesBadDurations : tabled.ready ∧ (⟨1, 0⟩ : Ratio).den = 0 ∧ (⟨-1, 2⟩ : Ratio).num < 0 :=
  ⟨tabled_ready, rfl, by decide⟩

theorem witness_PushAppendsTheSamples :
    (filled (Config.lenMax - 1)).ready ∧ (filled (Config.lenMax - 1)).final = false
      ∧ (filled (Config.lenMax - 1)).len + [(0x00 : Byte)].length ≤ Config.lenMax :=
  ⟨filled_ready _, rfl, by rw [filled_len]; decide⟩

theorem witness_PushRefusals :
    (closed.ready ∧ closed.final = true)
    ∧ ((filled Config.lenMax).ready ∧ (filled Config.lenMax).final = false
      ∧ 2 ^ 32 - 37 < (filled Config.lenMax).len + [(0x00 : Byte)].length) :=
  ⟨⟨⟨rfl, by decide⟩, rfl⟩, filled_ready _, rfl, by rw [filled_len]; decide⟩

theorem witness_FinalizeAgainChangesNothing : ∃ t, State.reset.ready ∧ exec .finalize State.reset = .next t :=
  ⟨_, ⟨rfl, by decide⟩, rfl⟩

theorem witness_ContainerLayout : (List.replicate Config.lenMax (0x80 : Byte)).length ≤ Config.lenMax := by
  rw [List.length_replicate]

theorem witness_HeaderChecksumLaw : sampleHeader.bankConfig = 0x1d ∧ sampleHeader.blockCount = 0x10
    ∧ sampleHeader.multiload = 0x00 ∧ sampleHeader.progressSpeedLow = 0xc3 ∧ sampleHeader.progressSpeedHigh = 0x01 := by
  decide

theorem witness_HcsumWritesCsum :
    (({ tabled with hdr := some sampleHeader } : State).ready
      ∧ ({ tabled with hdr := some sampleHeader } : State).hdr = some sampleHeader) ∧ (tabled.ready ∧ tabled.hdr = none) :=
  ⟨⟨⟨rfl, by decide⟩, rfl⟩, tabled_ready, rfl⟩

theorem witness_PageWritesThePageRegister : tabled.ready ∧ 15 < 16 ∧ 16 ≤ 16 := ⟨tabled_ready, by decide, by decide⟩

/-- A block that holds each byte value once (V33). -/
theorem witness_BlockChecksumLaw :
    (∀ j : Fin 256, (Vector.replicate 256 (0xff : Byte))[j] = 0xff)
    ∧ ∀ v : Byte, v ∈ (Vector.ofFn fun j : Fin 256 => BitVec.ofNat 8 j.val).toList := by
  refine ⟨fun j => by simp, fun v => ?_⟩
  rw [Vector.mem_toList_iff, Vector.mem_ofFn]
  exact ⟨⟨v.toNat, v.isLt⟩, by simp⟩

theorem witness_StoneSendsTheStartTone : allTabled.ready ∧ allTabled.final = false
    ∧ allTabled.tableStart = some startTableValues ∧ allTabled.len + 4386 ≤ Config.lenMax :=
  ⟨⟨rfl, by decide⟩, rfl, rfl, by decide⟩

/-- `CALIB`, `TRAILER`, `HEADER`: the last state in which the longest of them has room for certain. -/
theorem witness_CalibTrailerHeader :
    (filled (Config.lenMax - 22076)).ready ∧ (filled (Config.lenMax - 22076)).final = false
      ∧ (filled (Config.lenMax - 22076)).tableZero = some zeroTableValues
      ∧ (filled (Config.lenMax - 22076)).tableOne = some oneTableValues
      ∧ (filled (Config.lenMax - 22076)).len + 22076 ≤ Config.lenMax
      ∧ (filled (Config.lenMax - 22076)).len + 16512 ≤ Config.lenMax
      ∧ (filled (Config.lenMax - 22076)).len + 8 * 80 ≤ Config.lenMax :=
  ⟨filled_ready _, rfl, rfl, rfl, by rw [filled_len]; decide, by rw [filled_len]; decide, by rw [filled_len]; decide⟩

theorem witness_BlockSendsOneRecord :
    (tabled.ready ∧ tabled.final = false ∧ tabled.tableZero = some zeroTableValues ∧ tabled.tableOne = some oneTableValues
      ∧ tabled.blk.toNat = (0 : Fin 16).val ∧ tabled.len + 258 * 80 ≤ Config.lenMax)
    ∧ ({ tabled with blk := 15 } : State).blk.toNat = (15 : Fin 16).val
    ∧ ({ tabled with blk := 16 } : State).ready ∧ 16 ≤ ({ tabled with blk := 16 } : State).blk.toNat :=
  ⟨⟨tabled_ready, rfl, rfl, rfl, rfl, by decide⟩, rfl, ⟨rfl, by decide⟩, by decide⟩

theorem witness_EncodeSendsTheWholeFrame :
    ∃ (rom : List Byte) (h : rom.length = 4096), State.reset.refused = false ∧ State.reset.phase = .idle
      ∧ State.reset.final = false ∧ State.reset.len + (sampleStream (imageOf rom h)).length ≤ Config.lenMax := by
  refine ⟨List.replicate 4096 0, by rw [List.length_replicate], rfl, rfl, rfl, ?_⟩
  have hsum : ∀ l : List Byte, (l.map popcount).sum ≤ 8 * l.length := by
    intro l
    induction l with
    | nil => simp
    | cons b l ih => have := popcount_le b; simp; omega
  have ht : (tapeBytes (imageOf (List.replicate 4096 0) (by rw [List.length_replicate]))).length = 4825 := by
    simp only [tapeBytes, List.length_append, List.length_replicate, blockRecords_length]
    rfl
  have hs := flatMap_symbols_length (z := toneValues .zero) (o := toneValues .one) rfl rfl
    (tapeBytes (imageOf (List.replicate 4096 0) (by rw [List.length_replicate])))
  have hp := hsum (tapeBytes (imageOf (List.replicate 4096 0) (by rw [List.length_replicate])))
  have h86 : (List.replicate 86 (toneValues .start)).flatten.length = 4386 := by simp [toneValues]
  have hm : Config.lenMax = 4294967259 := rfl
  have h0 : State.reset.len = 0 := rfl
  rw [sampleStream, List.length_append, h86, show byteSymbols = symbols (toneValues .zero) (toneValues .one) from rfl, hs]
  omega

theorem witness_WrongSizedImageFaults : State.reset.refused = false ∧ State.reset.phase = .idle
    ∧ State.reset.final = false ∧ ([] : List Byte).length ≠ 4096 ∧ (List.replicate 4095 (0 : Byte)).length ≠ 4096
    ∧ (List.replicate 4097 (0 : Byte)).length ≠ 4096 := by
  refine ⟨rfl, rfl, rfl, by decide, ?_, ?_⟩ <;> rw [List.length_replicate] <;> decide

theorem witness_EncodeRefusalsComeFirst : (faulted.refused = false ∧ faulted.phase = .fault)
    ∧ (converted.refused = false ∧ converted.phase = .done)
    ∧ (closed.refused = false ∧ closed.phase = .idle ∧ closed.final = true) := by decide

theorem witness_ConversionYieldsTheContainer : State.reset.refused = false ∧ State.reset.phase = .idle
    ∧ State.reset.final = false ∧ State.reset.buf = [] ∧ (List.replicate 4096 (0 : Byte)).length = 4096 := by
  refine ⟨rfl, rfl, rfl, rfl, ?_⟩
  rw [List.length_replicate]

theorem witness_BufferDeterminesTheImage : State.reset.refused = false ∧ State.reset.phase = .idle
    ∧ State.reset.final = false ∧ State.reset.len + 390386 ≤ Config.lenMax
    ∧ (List.replicate 4096 (0 : Byte)).length = 4096 ∧ (List.replicate 4096 (1 : Byte)).length = 4096 := by
  refine ⟨rfl, rfl, rfl, by decide, ?_, ?_⟩ <;> rw [List.length_replicate]

theorem witness_SendingOperationsFrame : ∃ t u v, exec (.wbyte 0x54) tabled = .next t ∧ t.refused = false
    ∧ exec .stone State.reset = .next u ∧ exec (.push [0x01]) tabled = .next v ∧ v.refused = false :=
  ⟨_, _, _, rfl, rfl, rfl, rfl, rfl⟩

theorem witness_FrameBuildersFrame : ∃ t u v, exec (.header zeroImage) tabled = .next t
    ∧ exec (.block zeroImage) tabled = .next u ∧ exec (.encode []) tabled = .next v :=
  ⟨_, _, _, rfl, rfl, rfl⟩

theorem witness_RegisterOperationsFrame : ∃ t u v w x, exec (.synth .one) tabled = .next t
    ∧ exec .finalize tabled = .next u ∧ exec (.page 15) tabled = .next v ∧ exec .hcsum tabled = .next w
    ∧ exec (.bcsum 0 (Vector.replicate 256 0)) tabled = .next x :=
  ⟨_, _, _, _, _, rfl, rfl, rfl, rfl, rfl⟩

theorem witness_StepKeepsInvariant :
    ∃ s t : State, s.Inv ∧ step s = .next t ∧ s.pending ≠ [] ∧ t.len = 1 := by
  refine ⟨{ tabled with pending := [{ op := 4, seq := [0x80] }] }, _, ?_, rfl, by simp, rfl⟩
  exact
    { len_le := by decide
      tableStart_preset := fun v h => nomatch h
      tableZero_preset := fun v h => (Option.some.inj h).symm
      tableOne_preset := fun v h => (Option.some.inj h).symm
      hdr_valid := fun h hh => nomatch hh
      blk_le := by decide
      page_valid := fun p hp => nomatch hp
      out_eq := rfl
      done_complete := fun h => nomatch h
      fault_open := fun h => nomatch h
      report_none := ⟨fun _ => ⟨rfl, by decide⟩, fun _ => rfl⟩ }

theorem witness_BufferGrowsUntilFinal : ∃ t u, exec (.push [0x01]) tabled = .next t
    ∧ exec .finalize closed = .next u ∧ closed.final = true := ⟨_, _, rfl, rfl, rfl⟩

theorem witness_PhaseTransitions : ∃ t u, exec .reset faulted = .next t ∧ t.phase ≠ faulted.phase
    ∧ exec (.encode []) tabled = .next u ∧ u.phase ≠ tabled.phase := ⟨_, _, rfl, by decide, rfl, by decide⟩

theorem witness_FaultIsLeftOnlyByReset : faulted.phase = .fault ∧ faulted.refused = false := by decide

theorem witness_StopsExactlyAfterRefusal : refusedState.refused = true ∧ tabled.refused = false
    ∧ nextCommand (refusedState.withFetchWord 4 15) = some (.error .reservedOp)
    ∧ nextCommand (refusedState.withFetchWord 4 0) = some (.ok .reset) := ⟨rfl, rfl, rfl, rfl⟩

theorem witness_EncodeIsItsStepsInOrder :
    ∃ (rom : List Byte) (h : rom.length = 4096), State.reset.refused = false ∧ State.reset.phase = .idle
      ∧ State.reset.final = false ∧ State.reset.len + (sampleStream (imageOf rom h)).length ≤ Config.lenMax :=
  witness_EncodeSendsTheWholeFrame

/-- `step` gives a next state with the step wires taken, and a host command is waiting at rest. -/
theorem witness_StepsRunOnlyInsideEncode : ∃ s t : State, s.driven ≠ none ∧ step s = .next t
    ∧ State.reset.driven = none := ⟨State.reset.withFetchWord 4 0xd, _, by decide, rfl, rfl⟩

/-- The shortest duration whose count is 1, on a finalized buffer and with a table missing. -/
theorem witness_WdurRefusedThroughWbyte : closed.ready ∧ closed.sendRefused .bufferFinal
    ∧ State.reset.ready ∧ State.reset.sendRefused .tableInvalid
    ∧ 16 * ((⟨16, 11025⟩ : Ratio).den : Int) ≤ 11025 * (⟨16, 11025⟩ : Ratio).num :=
  ⟨⟨rfl, by decide⟩, .inl ⟨rfl, rfl⟩, ⟨rfl, by decide⟩, .inr ⟨rfl, .inl rfl, rfl⟩, by decide⟩

theorem witness_StepRefusals : (closed.ready ∧ closed.tableStart = none ∧ closed.final = true)
    ∧ (({ allTabled with final := true } : State).ready
      ∧ ({ allTabled with final := true } : State).tableStart = some startTableValues)
    ∧ ({ closed with blk := 15 } : State).sendRefused .bufferFinal
    ∧ ({ closed with blk := 15 } : State).blk.toNat = (15 : Fin 16).val ∧ State.reset.sendRefused .tableInvalid :=
  ⟨⟨⟨rfl, by decide⟩, rfl, rfl⟩, ⟨⟨rfl, by decide⟩, rfl⟩, .inl ⟨rfl, rfl⟩, rfl, .inr ⟨rfl, .inl rfl, rfl⟩⟩

/-- One byte short of room for a `WBYTE` of 0x00, and so for every longer send. -/
theorem witness_SendingPastTheLimit :
    ∃ s : State, s.ready ∧ s.final = false ∧ s.tableStart = some startTableValues ∧ s.tableZero = some zeroTableValues
      ∧ s.tableOne = some oneTableValues ∧ s.blk.toNat = (0 : Fin 16).val ∧ s.len ≤ Config.lenMax
      ∧ Config.lenMax < s.len + 4386 ∧ Config.lenMax < s.len + repeatCount ⟨16, 11025⟩ * (48 + 4 * popcount 0x00)
      ∧ Config.lenMax < s.len + 22076 ∧ Config.lenMax < s.len + 16512
      ∧ (∀ n, Config.lenMax < s.len + 48 * 8 + 4 * n) ∧ ∀ n, Config.lenMax < s.len + 48 * 258 + 4 * n := by
  refine ⟨{ filled (Config.lenMax - 47) with tableStart := some startTableValues }, ⟨rfl, by decide⟩, rfl, rfl, rfl, rfl,
    rfl, ?_, ?_, ?_, ?_, ?_, fun n => ?_, fun n => ?_⟩ <;>
    rw [show (State.len { filled (Config.lenMax - 47) with tableStart := some startTableValues }) = Config.lenMax - 47
      from filled_len _] <;> first | decide | (simp only [Config.lenMax]; omega)

theorem witness_EncodePastTheLimit :
    (filled Config.lenMax).refused = false ∧ (filled Config.lenMax).phase = .idle ∧ (filled Config.lenMax).final = false
      ∧ (filled Config.lenMax).len ≤ Config.lenMax
      ∧ ∃ (rom : List Byte) (h : rom.length = 4096),
          Config.lenMax < (filled Config.lenMax).len + (sampleStream (imageOf rom h)).length := by
  refine ⟨rfl, rfl, rfl, by rw [filled_len], List.replicate 4096 0, by rw [List.length_replicate], ?_⟩
  have h86 : (List.replicate 86 (toneValues .start)).flatten.length = 4386 := by simp [toneValues]
  rw [filled_len, sampleStream, List.length_append, h86]
  omega

theorem witness_DiagnosticsNeverFeedBack : ∃ t, exec (.wbyte 0x54) tabled = .next t
    ∧ exec (.wbyte 0x54) refusedState = .fault .stuckAfterRefusal := ⟨_, rfl, rfl⟩

end Sys2Proof.Machine.Tests
end

/-! SUPPORT. What the sending operations append when they complete, and the two kinds of record (R91 to R97). -/

namespace Sys2Proof.Machine

/-! Running an operation to its end. -/

/-- Appending changes `BUF` alone, as a record update. -/
theorem bufAppend_eq (s : State) (x : List Byte) : bufAppend s x = { s with buf := s.buf ++ x } := by
  simp [bufAppend]

/-- An operation that may run and whose body appends `x` ends with `x` behind `BUF`, all else as it was. -/
theorem exec_of_appends {i : Instr} {s : State} {x : List Byte} (hi : i ≠ .reset) (hr : s.ready)
    (hb : bodyOf i s = .completed (bufAppend s x)) : exec i s = .next { s with buf := s.buf ++ x } := by
  rw [exec_ready hi hr, hb, result_completed, bufAppend_eq]

/-- The same with the growth of `LEN`. -/
theorem exec_next_of_appends {i : Instr} {s : State} {x : List Byte} {n : Nat} (hi : i ≠ .reset) (hr : s.ready)
    (hb : bodyOf i s = .completed (bufAppend s x)) (hx : x.length = n) :
    ∃ t, exec i s = .next t ∧ t = { s with buf := s.buf ++ x } ∧ t.len = s.len + n :=
  ⟨_, exec_of_appends hi hr hb, rfl, by simp [State.len, hx]⟩

/-! Symbols. -/

/-- A byte's symbols by the numbers of its bits, 7 down to 0 (R61, R91). -/
theorem symbols_eq_flatMap_bits (z o : List Byte) (b : Byte) :
    symbols z o b = [7, 6, 5, 4, 3, 2, 1, 0].flatMap fun k => if b.getLsbD k then o else z := rfl

/-- `n` full copies of a table of `m` samples. -/
theorem tableCopies_length {m : Nat} (n : Nat) (v : Vector Byte m) :
    (List.replicate n v.toList).flatten.length = n * m := by
  simp

/-- 344 × 64 + 60 samples (R94). -/
theorem calibration_length {z o : List Byte} (hz : z.length = 6) (ho : o.length = 10) :
    ((List.replicate 344 (0x55 : Byte) ++ [0x54]).flatMap (symbols z o)).length = 22076 := by
  have hones : ((List.replicate 344 (0x55 : Byte) ++ [0x54]).map popcount).sum = 344 * 4 + 3 := by
    rw [List.map_append, List.map_replicate, List.sum_append, List.sum_replicate]
    rfl
  rw [flatMap_symbols_length hz ho, hones, List.length_append, List.length_replicate, List.length_singleton]

/-- `n` zero bytes are `8 × n` zero-tone cycles (R97). -/
theorem flatMap_symbols_replicate_zero (z o : List Byte) (n : Nat) :
    (List.replicate n (0 : Byte)).flatMap (symbols z o) = (List.replicate (n * 8) z).flatten := by
  rw [List.flatMap_replicate, symbols_zero, ← List.flatten_replicate_replicate, List.flatten_flatten,
    List.map_replicate]

/-! Checksums and sums of records. -/

/-- The header checksum as an integer (R177). -/
theorem headerChecksum_toNat (h : HeaderRecord) :
    ((headerChecksum h).toNat : ℤ) =
      (0x55 - h.addressLow.toNat - h.addressHigh.toNat - h.bankConfig.toNat - h.blockCount.toNat - h.multiload.toNat
        - h.progressSpeedLow.toNat - h.progressSpeedHigh.toNat) % 256 := by
  have hseed : (0x55 : Byte).toNat = 85 := rfl
  simp only [headerChecksum, Config.cfg, BitVec.toNat_sub, hseed]
  omega

/-- The engine's running sum is the sum of the bytes as words. -/
theorem byteSum_eq_sum (l : List Byte) : byteSum l = l.sum := List.sum_eq_foldl.symm

/-- The eight header bytes with the checksum in place sum to the seed, whatever the other seven are (R177). -/
theorem byteSum_headerBytes_checksum (h : HeaderRecord) :
    byteSum (headerBytes { h with checksum := headerChecksum h }) = 0x55 := by
  simp only [byteSum_eq_sum, headerBytes, headerChecksum, List.sum_cons, List.sum_nil, Config.cfg]
  ring

theorem byteSum_headerBytes_headerOf (image : Image) : byteSum (headerBytes (headerOf image)) = 0x55 :=
  byteSum_headerBytes_checksum _

/-- Page, checksum and data sum to the seed (R180). -/
theorem byteSum_blockRecord (image : Image) (b : Fin 16) : byteSum (blockRecord image b) = 0x55 := by
  simp only [byteSum_eq_sum, blockRecord, blockChecksum, List.sum_cons, Config.cfg]
  ring

/-! Where the bytes of an image and of the block records lie. -/

/-- Byte `j` of block `b` is byte `256 × b + j` of the image (R96, R108). -/
theorem blockData_getElem? (image : Image) (b : Fin 16) (j : Fin 256) :
    (blockData image b)[j.val]? = some image[256 * b.val + j.val] := by
  simp [blockData, Config.cfg, j.isLt, show 256 * b.val + j.val < 4096 by omega]

/-- In a concatenation of pieces of `n` bytes each, piece `i` starts at offset `n × i`. -/
theorem getElem?_flatMap_of_length_eq {α β : Type} {f : α → List β} {n : Nat} (hf : ∀ a, (f a).length = n)
    (l : List α) {i j : Nat} (hi : i < l.length) (hj : j < n) : (l.flatMap f)[n * i + j]? = (f l[i])[j]? := by
  induction l generalizing i with
  | nil => cases hi
  | cons a l ih =>
    rw [List.flatMap_cons]
    cases i with
    | zero =>
      rw [Nat.mul_zero, Nat.zero_add, List.getElem?_append_left (by rwa [hf])]
      rfl
    | succ i =>
      rw [List.getElem?_append_right (by rw [hf, Nat.mul_succ]; omega), hf,
        show n * (i + 1) + j - n = n * i + j by rw [Nat.mul_succ]; omega]
      exact ih (Nat.lt_of_succ_lt_succ hi)

/-- The records follow each other with nothing between, block 0 first (R96). -/
theorem blockRecords_getElem? (image : Image) (b : Fin 16) {j : Nat} (hj : j < 258) :
    (blockRecords image)[258 * b.val + j]? = (blockRecord image b)[j]? := by
  have h := getElem?_flatMap_of_length_eq (blockRecord_length image) (List.finRange 16) (i := b.val) (by simp) hj
  rw [blockRecords, h, List.getElem_finRange]
  rfl

/-- The block records start at offset 353 of the tape byte stream (R98). -/
theorem tapeBytes_getElem?_of_blockRecords (image : Image) {k : Nat} (hk : k < 4128) :
    (tapeBytes image)[353 + k]? = (blockRecords image)[k]? := by
  have hpre : (List.replicate 344 0x55 ++ [0x54] ++ headerBytes (headerOf image)).length = 353 := by
    simp only [headerBytes, List.length_append, List.length_replicate, List.length_cons, List.length_nil]
  rw [tapeBytes, List.getElem?_append_left (by rw [List.length_append, hpre, blockRecords_length]; omega),
    List.getElem?_append_right (by rw [hpre]; omega), hpre, Nat.add_sub_cancel_left]

/-! The obligations on the mapper, the frame builder's sending steps and its records. -/

/-- Settles O12: the byte fits because its symbols are at most 80 bytes; their order is `symbols` by bit numbers. -/
theorem wbyteSendsEightSymbols : Obligations.WbyteSendsEightSymbols := by
  refine ⟨fun s b zero one hr hf hz ho hl => ?_, rfl, rfl⟩
  have hfit : (symbols zero.toList one.toList b).length ≤ 80 := symbols_le zero.length_toList one.length_toList b
  rw [← symbols_eq_flatMap_bits]
  exact exec_of_appends (by simp) hr (sendByte_completed hf (table_zero hz) (table_one ho) (by omega))

/-- Settles O30: 86 sink writes of one table, each of which fits. -/
theorem stoneSendsTheStartTone : Obligations.StoneSendsTheStartTone := by
  intro s tone hr hf ht hl
  have hb : runStone s = .completed (bufAppend s (List.replicate 86 tone.toList).flatten) := by
    simp only [runStone, table_start ht, startCycles_eq]
    exact repeatRun_pushSamples hf (by simpa using hl)
  exact exec_next_of_appends (by simp) hr hb (tableCopies_length 86 tone)

/-- Settles O31: `CALIB` is one byte sequence, sent as its symbols. -/
theorem calibSendsCalibrationAndSync : Obligations.CalibSendsCalibrationAndSync := by
  refine ⟨by decide, fun s zero one hr hf hz ho hl => ?_⟩
  have hlen := calibration_length zero.length_toList one.length_toList
  refine exec_next_of_appends (by simp) hr ?_ hlen
  exact (runCalib_eq s).trans (sendBytes_completed hf (table_zero hz) (table_one ho) (by rwa [hlen]))

/-- Settles O32: `TRAILER` is a run of zero bytes, whose symbols are zero-tone cycles alone. -/
theorem trailerSendsZeroTones : Obligations.TrailerSendsZeroTones := by
  intro s zero one hr hf hz ho hl
  have hlen : (List.replicate (344 * 8) zero.toList).flatten.length = 16512 := tableCopies_length _ zero
  have hsym := flatMap_symbols_replicate_zero zero.toList one.toList 344
  refine exec_next_of_appends (by simp) hr ?_ hlen
  rw [← hsym]
  exact (runTrailer_eq s).trans (sendBytes_completed hf (table_zero hz) (table_one ho) (by rwa [hsym, hlen]))

/-- Settles O33: the checksum byte is the header checksum, and its law gives the sum. -/
theorem headerRecordOfAnImage : Obligations.HeaderRecordOfAnImage := by
  intro image
  refine ⟨(headerOf image).checksum, rfl, headerChecksum_toNat _, ?_⟩
  rw [← byteSum_toNat, byteSum_headerBytes_headerOf]
  rfl

/-- Settles O35: the record's parts by offset, its sum by the block checksum's law, its place in the tape byte stream by
the equal lengths of the records before it. -/
theorem blockRecordOfAnImage : Obligations.BlockRecordOfAnImage := by
  intro image b
  refine ⟨blockRecord_length image b, rfl, rfl, fun j => ?_, ?_, fun j hj => ?_⟩
  · rw [← blockData_getElem?, blockRecord, Nat.add_comm]
    rfl
  · rw [← byteSum_toNat, byteSum_blockRecord]
    rfl
  · rw [Nat.add_assoc, tapeBytes_getElem?_of_blockRecords image (by omega), blockRecords_getElem? image b hj]

end Sys2Proof.Machine

/-! SUPPORT. The checksum engine's laws (R177, R180): the sums that a block's shape decides. -/

namespace Sys2Proof.Machine

/-! Sums of a block's data. -/

/-- 256 equal bytes sum to 0 mod 256, whichever byte it is. -/
theorem byteSum_of_getElem_eq {data : Vector Byte 256} {c : Byte} (h : ∀ j : Fin 256, data[j] = c) :
    byteSum data.toList = 0 := by
  have hdata : data = Vector.replicate 256 c := by
    ext1 i hi
    exact (h ⟨i, hi⟩).trans (Vector.getElem_replicate hi).symm
  apply BitVec.eq_of_toNat_eq
  rw [byteSum_toNat, hdata, Vector.toList_replicate, List.map_replicate, List.sum_replicate, smul_eq_mul,
    Nat.mul_mod_right]
  rfl

/-- 256 bytes among which every value occurs are, in some order, the values 0 to 255, each once. -/
theorem map_toNat_perm_range {data : Vector Byte 256} (h : ∀ v : Byte, v ∈ data.toList) :
    (List.range 256).Perm (data.toList.map BitVec.toNat) := by
  have hsub : List.range 256 ⊆ data.toList.map BitVec.toNat := fun n hn =>
    List.mem_map.mpr ⟨BitVec.ofNat 8 n, h _, BitVec.toNat_ofNat n 8 |>.trans (Nat.mod_eq_of_lt (List.mem_range.mp hn))⟩
  exact (List.nodup_range.subperm hsub).perm_of_length_le (by simp)

/-- `Finset.sum_range_id` for the list. -/
theorem sum_listRange (n : Nat) : (List.range n).sum = n * (n - 1) / 2 :=
  (congrArg List.sum (List.map_id _).symm).trans (Finset.sum_range_id n)

/-- The values 0 to 255 sum to 32640, which is 0x80 mod 256. -/
theorem byteSum_of_forall_mem {data : Vector Byte 256} (h : ∀ v : Byte, v ∈ data.toList) :
    byteSum data.toList = 0x80 := by
  apply BitVec.eq_of_toNat_eq
  rw [byteSum_toNat, ← (map_toNat_perm_range h).sum_eq, sum_listRange]
  rfl

/-! The checksums as integers. -/

/-- The block checksum as an integer (R180). -/
theorem blockChecksum_toNat (page : Byte) (data : List Byte) :
    ((blockChecksum page data).toNat : ℤ) = (0x55 - page.toNat - ((data.map BitVec.toNat).sum : ℤ)) % 256 := by
  have hseed : (0x55 : Byte).toNat = 85 := rfl
  simp only [blockChecksum, Config.cfg, BitVec.toNat_sub, byteSum_toNat, hseed]
  omega

/-- With the five constants of `CFG` in place, only the address bytes are left to subtract (R177). -/
theorem headerChecksum_toNat_of_constants {h : HeaderRecord} (hbank : h.bankConfig = 0x1d)
    (hcount : h.blockCount = 0x10) (hmulti : h.multiload = 0x00) (hlow : h.progressSpeedLow = 0xc3)
    (hhigh : h.progressSpeedHigh = 0x01) :
    ((headerChecksum h).toNat : ℤ) = (0x64 - h.addressLow.toNat - h.addressHigh.toNat) % 256 := by
  rw [headerChecksum_toNat, hbank, hcount, hmulti, hlow, hhigh]
  change (0x55 - _ - _ - 0x1d - 0x10 - 0x00 - 0xc3 - 0x01 : ℤ) % 256 = _
  omega

/-! The obligations on the checksum functions. -/

/-- Settles O24: the formula is the integer form of the checksum, and the sum law and the form with constants follow. -/
theorem headerChecksumLaw : Obligations.HeaderChecksumLaw := by
  refine ⟨rfl, rfl, fun h => ⟨headerChecksum_toNat h, ?_, headerChecksum_toNat_of_constants⟩⟩
  rw [← byteSum_toNat, byteSum_headerBytes_checksum]
  rfl

/-- Settles O28: the sum law is the formula moved to the other side; the corner cases follow from the data's sum. -/
theorem blockChecksumLaw : Obligations.BlockChecksumLaw := by
  refine ⟨fun _ _ => ⟨rfl, rfl⟩, fun page data => ?_⟩
  have hformula := blockChecksum_toNat page data.toList
  refine ⟨hformula, by omega, fun hconst => ?_, fun hall => ?_⟩
  · have hsum : byteSum data.toList = 0 := hconst.elim byteSum_of_getElem_eq byteSum_of_getElem_eq
    rw [blockChecksum, hsum]
    exact BitVec.sub_zero _
  · rw [blockChecksum, byteSum_of_forall_mem hall]
    rfl

end Sys2Proof.Machine

/-! SUPPORT. The sink interface of the accumulator (R210, R211). -/

namespace Sys2Proof.Machine

/-- Settles O19: the sink accepts the write because it fits, and appending moves no byte below `LEN`. -/
theorem pushAppendsTheSamples : Obligations.PushAppendsTheSamples := by
  intro s seq hr hf hl
  obtain ⟨t, hexec, ht, hlen⟩ :=
    exec_next_of_appends (i := .push seq) (by simp) hr (pushSamples_completed hf hl) (Nat.mul_one _).symm
  refine ⟨t, hexec, ht, hlen, fun a ha => ?_⟩
  rw [ht, ← bufAppend_eq]
  exact bufRead_bufAppend ha

end Sys2Proof.Machine

/-! SUPPORT. The command interface (R104, R111 to R114): which commands decode, to what, and what a step makes of them. -/

namespace Sys2Proof.Machine

/-! Decoding. -/

/-- The sixteen values of the selector `op[3:0]`, the two that can be rejected first. -/
theorem selector_cases : ∀ op : BitVec 4, op = 0x1 ∨ op = 0xf ∨ op = 0x0 ∨ op = 0x2 ∨ op = 0x3 ∨ op = 0x4 ∨ op = 0x5
    ∨ op = 0x6 ∨ op = 0x7 ∨ op = 0x8 ∨ op = 0x9 ∨ op = 0xa ∨ op = 0xb ∨ op = 0xc ∨ op = 0xd ∨ op = 0xe := by
  decide

/-- The tone port carries the code of the decoded tone (R113). -/
theorem decodeTone_eq_ok_iff (p : BitVec 2) (t : Tone) : decodeTone p = .ok t ↔ p = encodeTone t := by
  revert p
  cases t <;> decide

/-- A tone port that decodes to no tone carries 3 (R113). -/
theorem tone_of_decodeTone_error {p : BitVec 2} {e : Reject} (h : decodeTone p = .error e) : p = 3 := by
  revert h
  revert p
  cases e <;> decide

theorem decode_synth {c : Command} (h : c.op = 0x1) : decode c = (decodeTone c.tone).map .synth := by
  obtain ⟨op, tone, byte, duration, seq, rom, index, image, page, data⟩ := c
  cases h
  rfl

theorem samePorts_symm {i : Instr} {c d : Command} (h : samePorts i c d) : samePorts i d c := by
  cases i <;> simp_all [samePorts]

theorem samePorts_trans {i : Instr} {c d e : Command} (h : samePorts i c d) (k : samePorts i d e) :
    samePorts i c e := by
  cases i <;> simp_all [samePorts]

/-- What decodes to `i` carries the selector of `i`, and on the ports `i` uses the operands of `i`. -/
theorem ports_of_decode {c : Command} {i : Instr} (h : decode c = .ok i) :
    c.op = (encode i).op ∧ samePorts i c (encode i) := by
  obtain ⟨op, tone, byte, duration, seq, rom, index, image, page, data⟩ := c
  rcases selector_cases op with
    rfl | rfl | rfl | rfl | rfl | rfl | rfl | rfl | rfl | rfl | rfl | rfl | rfl | rfl | rfl | rfl
  · rw [decode_synth rfl] at h
    cases ht : decodeTone tone with
    | error e => rw [ht] at h; cases h
    | ok t =>
      rw [ht] at h
      cases h
      exact ⟨rfl, (decodeTone_eq_ok_iff _ _).mp ht⟩
  · cases h
  all_goals
    cases h
    exact ⟨rfl, by simp only [samePorts, encode, and_self]⟩

/-- A command with the selector of `i` and its operands decodes to `i`, whatever the other ports carry. -/
theorem decode_of_ports {c : Command} {i : Instr} (hop : c.op = (encode i).op) (hp : samePorts i c (encode i)) :
    decode c = .ok i := by
  obtain ⟨op, tone, byte, duration, seq, rom, index, image, page, data⟩ := c
  cases hop
  cases i with
  | synth t => cases hp; cases t <;> rfl
  | wdur b d => obtain ⟨hb, hd⟩ := hp; cases hb; cases hd; rfl
  | bcsum p d => obtain ⟨hp, hd⟩ := hp; cases hp; cases hd; rfl
  | _ => cases hp; rfl

/-- Decoding reads the selector and the ports the operation uses, all of them and nothing else (R112, R113). -/
theorem decode_eq_ok_iff (c : Command) (i : Instr) :
    decode c = .ok i ↔ c.op = (encode i).op ∧ samePorts i c (encode i) :=
  ⟨ports_of_decode, fun h => decode_of_ports h.1 h.2⟩

/-- What is rejected carries a reserved code (R114). -/
theorem reserved_of_decode_error {c : Command} {e : Reject} (h : decode c = .error e) :
    c.op = 0xf ∨ (c.op = 0x1 ∧ c.tone = 3) := by
  obtain ⟨op, tone, byte, duration, seq, rom, index, image, page, data⟩ := c
  rcases selector_cases op with
    rfl | rfl | rfl | rfl | rfl | rfl | rfl | rfl | rfl | rfl | rfl | rfl | rfl | rfl | rfl | rfl
  · rw [decode_synth rfl] at h
    cases ht : decodeTone tone with
    | error e => exact .inr ⟨rfl, tone_of_decodeTone_error ht⟩
    | ok t => rw [ht] at h; cases h
  · exact .inl rfl
  all_goals cases h

/-- The reserved codes are the ones rejected (R114). -/
theorem decode_eq_error_iff (c : Command) :
    (∃ e, decode c = .error e) ↔ c.op = 0xf ∨ (c.op = 0x1 ∧ c.tone = 3) := by
  refine ⟨fun ⟨e, he⟩ => reserved_of_decode_error he, ?_⟩
  obtain ⟨op, tone, byte, duration, seq, rom, index, image, page, data⟩ := c
  rintro (hop | ⟨hop, htone⟩)
  · cases hop
    exact ⟨_, rfl⟩
  · cases hop
    cases htone
    exact ⟨_, rfl⟩

/-! Accepting. -/

/-- The selectors of the steps and functions are 7 and up (R111). -/
theorem kind_ne_host_iff (i : Instr) : i.kind ≠ .host ↔ 0x7 ≤ (encode i).op := by
  cases i <;> simp [Instr.kind, encode]

theorem accept_host_of_kind {c : Command} {i : Instr} (h : decode c = .ok i) (hk : i.kind = .host) :
    accept .host c = .ok i := by
  simp [accept, h, hk]

theorem accept_sequencer {c : Command} {i : Instr} (h : decode c = .ok i) : accept .sequencer c = .ok i := by
  simp [accept, h]

/-- The host's command is a host operation, or turned away for one of two reasons (R114). -/
theorem accept_host_cases (c : Command) :
    (∃ i : Instr, i.kind = .host ∧ decode c = .ok i ∧ accept .host c = .ok i)
      ∨ ∃ r, (r = .reservedOp ∨ r = .notHostOp) ∧ accept .host c = .error r := by
  cases h : decode c with
  | error e => exact .inr ⟨.reservedOp, .inl rfl, by simp [accept, h]⟩
  | ok i =>
    by_cases hk : i.kind = .host
    · exact .inl ⟨i, hk, rfl, accept_host_of_kind h hk⟩
    · exact .inr ⟨.notHostOp, .inr rfl, by simp [accept, h, hk]⟩

/-- A reserved code is turned away with `ReservedOp`, whoever drives it (R114). -/
theorem accept_reserved {c : Command} (h : c.op = 0xf ∨ (c.op = 0x1 ∧ c.tone = 3)) (who : Issuer) :
    accept who c = .error .reservedOp := by
  obtain ⟨e, he⟩ := (decode_eq_error_iff c).mpr h
  simp [accept, he]

/-- A selector of 7 to 0xe is turned away from the host with `NotHostOp` (R114). -/
theorem accept_host_step {c : Command} (h7 : 0x7 ≤ c.op) (he : c.op ≤ 0xe) : accept .host c = .error .notHostOp := by
  cases h : decode c with
  | error e =>
    have hres := (decode_eq_error_iff c).mp ⟨e, h⟩
    bv_omega
  | ok i =>
    have hk : i.kind ≠ .host := (kind_ne_host_iff i).mpr ((ports_of_decode h).1 ▸ h7)
    simp [accept, h, hk]

/-! Stepping. -/

/-- With the step wires at rest a step takes the host's first command and runs it where it is accepted. -/
theorem step_host_accepted {s : State} {c : Command} {rest : List Command} {i : Instr} (hd : s.driven = none)
    (hp : s.pending = c :: rest) (ha : accept .host c = .ok i) : step s = exec i { s with pending := rest } := by
  simp [step, nextCommand, takeCommand, hd, hp, ha]

theorem step_host_refused {s : State} {c : Command} {rest : List Command} {r : Reason} (hd : s.driven = none)
    (hp : s.pending = c :: rest) (ha : accept .host c = .error r) :
    step s = refuseCommand r { s with pending := rest } := by
  simp [step, nextCommand, takeCommand, hd, hp, ha]

theorem step_driven {s : State} {c : Command} {i : Instr} (hd : s.driven = some c) (ha : accept .sequencer c = .ok i) :
    step s = exec i { s with driven := none } := by
  simp [step, nextCommand, takeCommand, hd, ha]

theorem step_idle {s : State} (hd : s.driven = none) (hp : s.pending = []) : step s = .next s := by
  simp [step, nextCommand, hd, hp]

theorem refuseCommand_next {s : State} {r : Reason} (h : s.refused = false) :
    refuseCommand r s = .next (setRefused r s) := by
  simp [refuseCommand, h]

/-- The interface gives a next state only where nothing was refused before, and marks the refusal. -/
theorem refuseCommand_cases {s t : State} {r : Reason} (h : refuseCommand r s = .next t) :
    s.refused = false ∧ t = setRefused r s := by
  unfold refuseCommand at h
  split at h
  · cases h
  · next hr => exact ⟨by simpa using hr, (Host.Outcome.next.inj h).symm⟩

/-- Everything a step that gives a next state can be: idle, an operation, or a command turned away. -/
theorem step_cases {s t : State} (h : step s = .next t) :
    (nextCommand s = none ∧ t = s) ∨ (∃ i, exec i (takeCommand s) = .next t)
      ∨ ∃ r, refuseCommand r (takeCommand s) = .next t := by
  unfold step at h
  split at h
  · next hn => exact .inl ⟨hn, (Host.Outcome.next.inj h).symm⟩
  · next i _ => exact .inr (.inl ⟨i, h⟩)
  · next r _ => exact .inr (.inr ⟨r, h⟩)

/-! When an operation, a command and a step stop. -/

theorem exec_reset (s : State) : exec .reset s = .next (resetState s) := rfl

/-- Every operation gives a next state until a refusal, `RESET` after one too (R244, R270). -/
theorem exec_next {i : Instr} {s : State} (h : s.refused = false ∨ i = .reset) : ∃ t, exec i s = .next t := by
  by_cases hi : i = .reset
  · exact ⟨_, hi ▸ exec_reset s⟩
  · have hr : s.refused = false := h.resolve_right hi
    rw [exec_operate hi]
    by_cases hp : s.phase = .fault <;> simp [operate, hr, hp]

theorem exec_stuck {i : Instr} {s : State} (h : s.refused = true) (hi : i ≠ .reset) :
    exec i s = .fault .stuckAfterRefusal := by
  rw [exec_operate hi, operate_stuck h]

/-- After a refusal the machine is stuck on every command but `RESET` (U10). -/
theorem step_stuck {s : State} {c : Except Reason Instr} (hr : s.refused = true) (hn : nextCommand s = some c)
    (hc : c ≠ .ok .reset) : step s = .fault .stuckAfterRefusal := by
  cases c with
  | error r => simp [step, hn, refuseCommand, hr]
  | ok i =>
    have hi : i ≠ .reset := fun h => hc (h ▸ rfl)
    simpa [step, hn] using exec_stuck (by simpa using hr) hi

/-- A step gives a next state until a refusal, and after one where it idles or resets. -/
theorem step_next {s : State}
    (h : s.refused = false ∨ nextCommand s = none ∨ nextCommand s = some (.ok .reset)) : ∃ t, step s = .next t := by
  cases hn : nextCommand s with
  | none => exact ⟨s, by simp [step, hn]⟩
  | some c =>
    cases c with
    | ok i =>
      obtain ⟨t, ht⟩ := exec_next (i := i) (s := takeCommand s) (by simpa [hn] using h)
      exact ⟨t, by simpa [step, hn] using ht⟩
    | error r => exact ⟨_, by simpa [step, hn] using refuseCommand_next (by simpa [hn] using h)⟩

/-! The obligations on the interface. -/

/-- Settles O1: each word is read off the operation map. -/
theorem selectorWordsDecode : Obligations.SelectorWordsDecode :=
  ⟨rfl, rfl, rfl, rfl, rfl, rfl, rfl, rfl, rfl⟩

/-- Settles O2: the round trip operation by operation; then both commands are held against the encoding of the operation
they decode to. -/
theorem decodeEncodeAgree : Obligations.DecodeEncodeAgree := by
  refine ⟨fun i => ?_, fun c d i hc => ?_⟩
  · cases i with
    | reset => exact Laws.RoundTrip.reset
    | synth t => exact Laws.RoundTrip.synth t
    | wbyte b => exact Laws.RoundTrip.wbyte b
    | wdur b d => exact Laws.RoundTrip.wdur b d
    | push seq => exact Laws.RoundTrip.push seq
    | finalize => exact Laws.RoundTrip.finalize
    | encode rom => exact Laws.RoundTrip.encode rom
    | stone => exact Laws.RoundTrip.stone
    | calib => exact Laws.RoundTrip.calib
    | header image => exact Laws.RoundTrip.header image
    | block image => exact Laws.RoundTrip.block image
    | trailer => exact Laws.RoundTrip.trailer
    | page b => exact Laws.RoundTrip.page b
    | hcsum => exact Laws.RoundTrip.hcsum
    | bcsum page data => exact Laws.RoundTrip.bcsum page data
  · obtain ⟨hop, hports⟩ := ports_of_decode hc
    rw [decode_eq_ok_iff, hop]
    constructor
    · rintro ⟨hd, hdports⟩
      exact ⟨hd.symm, samePorts_trans hports (samePorts_symm hdports)⟩
    · rintro ⟨hd, hcd⟩
      exact ⟨hd.symm, samePorts_trans (samePorts_symm hcd) hports⟩

/-- Settles O3. -/
theorem onlyReservedCodesRejected : Obligations.OnlyReservedCodesRejected := decode_eq_error_iff

/-- Settles O4: the operation is accepted from either issuer, and the step takes the command off. -/
theorem stepRunsTheDecodedOperation : Obligations.StepRunsTheDecodedOperation := fun _ _ _ hc =>
  ⟨fun _ hd hp hk => step_host_accepted hd hp (accept_host_of_kind hc hk), fun hd => step_driven hd (accept_sequencer hc)⟩

/-- Settles O5. -/
theorem idleBlockHoldsItsState : Obligations.IdleBlockHoldsItsState := fun _ => step_idle

/-- Settles O6: a reserved code decodes to nothing; what decodes from 7 to 0xe is no host operation. -/
theorem interfaceTurnsCommandsAway : Obligations.InterfaceTurnsCommandsAway := by
  intro s c rest hd hp hr
  refine ⟨fun hres => ?_, fun ⟨h7, he⟩ => ?_⟩
  · exact (step_host_refused hd hp (accept_reserved hres _)).trans (refuseCommand_next hr)
  · exact (step_host_refused hd hp (accept_host_step h7 he)).trans (refuseCommand_next hr)

/-- Settles O51: stuck and next state exclude each other, and between them they cover every state. -/
theorem stopsExactlyAfterRefusal : Obligations.StopsExactlyAfterRefusal := by
  refine ⟨fun i s => ?_, fun s => ?_⟩
  · by_cases h : s.refused = false ∨ i = .reset
    · obtain ⟨t, ht⟩ := exec_next h
      have hno : ¬ (s.refused = true ∧ i ≠ .reset) := by simpa [imp_iff_not_or] using h
      simp [ht, hno, h]
    · obtain ⟨hr, hi⟩ : s.refused = true ∧ i ≠ .reset := by simpa using h
      simp [exec_stuck hr hi, hr, hi]
  · by_cases h : s.refused = false ∨ nextCommand s = none ∨ nextCommand s = some (.ok .reset)
    · obtain ⟨t, ht⟩ := step_next h
      have hno : ¬ (s.refused = true ∧ ∃ c, nextCommand s = some c ∧ c ≠ .ok .reset) := by
        rintro ⟨hr, c, hn, hc⟩
        simp [hr, hn, hc] at h
      simp [ht, hno, h]
    · obtain ⟨hr, hn, hc⟩ : s.refused = true ∧ nextCommand s ≠ none ∧ nextCommand s ≠ some (.ok .reset) := by
        simpa using h
      obtain ⟨c, hnc⟩ := Option.ne_none_iff_exists'.mp hn
      have hreset : c ≠ .ok .reset := fun hcr => hc (hcr ▸ hnc)
      simp [step_stuck hr hnc hreset, hr, hnc, hreset]

end Sys2Proof.Machine

/-! SUPPORT. Single operations: what ends one, the counts of `WDUR`, and the container (R154, R155, R214). -/

namespace Sys2Proof.Machine

/-! How an issued operation ends. -/

theorem ready_of_idle {s : State} (hr : s.refused = false) (hp : s.phase = .idle) : s.ready := ⟨hr, by simp [hp]⟩

theorem exec_of_completed {i : Instr} {s t : State} (hi : i ≠ .reset) (hr : s.ready)
    (hb : bodyOf i s = .completed t) : exec i s = .next t := by
  rw [exec_ready hi hr, hb, result_completed]

/-- An operation whose body is refused leaves the state at the refusing check, the refusal marked (R244). -/
theorem exec_of_refused {i : Instr} {s t : State} {r : Reason} (hi : i ≠ .reset) (hr : s.ready)
    (hb : bodyOf i s = .refused r t) : exec i s = .next (setRefused r t) := by
  rw [exec_ready hi hr, hb, result_refused]

theorem exec_faulted {i : Instr} {s : State} (hi : i ≠ .reset) (hr : s.refused = false) (hp : s.phase = .fault) :
    exec i s = .next (setRefused .faulted s) := by
  simp [exec_operate hi, operate, hr, hp]

/-- An operation that ends with nothing refused ran its body to the end. -/
theorem body_completed_of_exec {i : Instr} {s t : State} (hi : i ≠ .reset) (ht : exec i s = .next t)
    (hn : t.refused = false) : bodyOf i s = .completed t := by
  obtain ⟨_, ⟨_, rfl⟩ | ⟨_, hbody⟩⟩ := exec_cases hi ht
  · cases hn
  · exact result_inv hbody.symm hn

/-! The sink and the mapper. -/

theorem pushSamples_final {s : State} (seq : List Byte) (h : s.final = true) :
    pushSamples seq s = .refused .bufferFinal s := by
  simp [pushSamples, h]

theorem pushSamples_full {s : State} {seq : List Byte} (hf : s.final = false)
    (hl : Config.lenMax < s.len + seq.length) : pushSamples seq s = .refused .bufferFull s := by
  have hchannels : Config.lenMax < s.len + seq.length * Config.cfg.channels := by simpa [Config.cfg] using hl
  simp [pushSamples, hf, hchannels]

theorem tableZero_length {s : State} {z : List Byte} (h : s.table .zero = some z) : z.length = 6 := by
  obtain ⟨v, _, rfl⟩ := Option.map_eq_some_iff.mp h
  exact v.length_toList

theorem tableOne_length {s : State} {o : List Byte} (h : s.table .one = some o) : o.length = 10 := by
  obtain ⟨v, _, rfl⟩ := Option.map_eq_some_iff.mp h
  exact v.length_toList

/-- Where `sendRefused` holds `WBYTE` is refused before anything goes out (R151). -/
theorem sendByte_refused {s : State} {r : Reason} (h : s.sendRefused r) (b : Byte) :
    sendByte b s = .refused r s := by
  obtain ⟨hf, rfl⟩ | ⟨hf, hz | ho, rfl⟩ := h
  · simp [sendByte, hf]
  · simp [sendByte, hf, State.table, hz]
  · cases hz : s.tableZero <;> simp [sendByte, hf, State.table, hz, ho]

theorem sendBytes_singleton (b : Byte) (s : State) : sendBytes [b] s = sendByte b s := by
  simp only [sendBytes]
  cases sendByte b s <;> rfl

/-- Bytes whose symbols would pass `LEN_MAX` go out as far as they fit (R219). -/
theorem sendBytes_full {s : State} {z o : List Byte} (hf : s.final = false) (hz : s.table .zero = some z)
    (ho : s.table .one = some o) {bytes : List Byte} (hs : s.len ≤ Config.lenMax)
    (hl : Config.lenMax < s.len + 48 * bytes.length + 4 * (bytes.map popcount).sum) :
    sendBytes bytes s
      = .refused .bufferFull (bufAppend s (fitting (Config.lenMax - s.len) (symbolWrites z o bytes))) := by
  rw [sendBytes_eq hf hz ho]
  refine pushAll_full hf hs ?_
  rwa [symbolWrites_flatten, flatMap_symbols_length (tableZero_length hz) (tableOne_length ho), ← Nat.add_assoc]

/-! Durations (R155, R158). -/

theorem durationOk_iff (d : Ratio) : durationOk d = true ↔ d.den ≠ 0 ∧ 0 ≤ d.num := by
  simp [durationOk, Ratio.nonNegative]

/-- The count as an integer quotient (decision D5). -/
theorem repeatCount_eq_ediv {d : Ratio} (h : 0 ≤ d.num) :
    (repeatCount d : ℤ) = d.num * 11025 / ((16 * d.den : ℕ) : ℤ) := by
  have hcount : repeatCount d = (d.num * 44100).toNat / (d.den * 64) := rfl
  have hnum : ((d.num * 44100).toNat : ℤ) = 4 * (d.num * 11025) := by omega
  have hden : ((d.den * 64 : ℕ) : ℤ) = 4 * ((16 * d.den : ℕ) : ℤ) := by push_cast; ring
  rw [hcount, Int.natCast_ediv, hnum, hden, Int.mul_ediv_mul_of_pos _ _ (by norm_num)]

theorem repeatCount_eq_zero {d : Ratio} (hn : 0 ≤ d.num) (h : 11025 * d.num < 16 * (d.den : ℤ)) :
    repeatCount d = 0 := by
  have hquot := repeatCount_eq_ediv hn
  rw [Int.ediv_eq_zero_of_lt (by omega) (by push_cast; omega)] at hquot
  exact_mod_cast hquot

theorem repeatCount_pos {d : Ratio} (hd : d.den ≠ 0) (h : 16 * (d.den : ℤ) ≤ 11025 * d.num) :
    0 < repeatCount d := by
  have hquot := repeatCount_eq_ediv (d := d) (by omega)
  have hone : 1 ≤ d.num * 11025 / ((16 * d.den : ℕ) : ℤ) := Int.le_ediv_of_mul_le (by omega) (by push_cast; omega)
  omega

/-! `HCSUM` (R177; log entry 7). -/

theorem runHcsum_some {s : State} {h : HeaderRecord} (hh : s.hdr = some h) :
    runHcsum s = .completed (writeCsum (headerChecksum h) s) := by
  simp [runHcsum, hh]

theorem runHcsum_none {s : State} (hh : s.hdr = none) :
    runHcsum s = .completed (writeCsum (headerChecksum (freeHeader s.freeIx)) (nextFree s)) := by
  simp [runHcsum, hh]

/-- `HCSUM` always completes, and writes `CSUM` and the free-value counter at most. -/
theorem runHcsum_cases (s : State) : ∃ v n, runHcsum s = .completed { s with csum := some v, freeIx := n } := by
  obtain hh | ⟨h, hh⟩ := Option.eq_none_or_eq_some s.hdr
  · exact ⟨_, s.freeIx + 1, runHcsum_none hh⟩
  · exact ⟨_, s.freeIx, runHcsum_some hh⟩

/-! `PAGE` (R179). -/

theorem runPage_completed {b : Nat} (h : b < 16) (s : State) :
    runPage b s = .completed (writePage (pageNumber ⟨b, h⟩) s) := dif_pos h

theorem runPage_outOfDomain {b : Nat} (h : 16 ≤ b) (s : State) : runPage b s = .refused .outOfDomain s :=
  dif_neg (Nat.not_lt.mpr h)

/-! `ENCODE` before its conversion (R170). -/

theorem runEncode_done {s : State} (rom : List Byte) (hp : s.phase = .done) :
    runEncode rom s = .refused .alreadyEncoded s := by
  simp [runEncode, hp]

theorem runEncode_final {s : State} (rom : List Byte) (hp : s.phase ≠ .done) (hf : s.final = true) :
    runEncode rom s = .refused .bufferFinal s := by
  simp [runEncode, hp, hf]

theorem runEncode_wrongSize {s : State} {rom : List Byte} (hp : s.phase ≠ .done) (hf : s.final = false)
    (h : rom.length ≠ 4096) : runEncode rom s = .completed (takeRomSizeFault rom.length s) := by
  simp [runEncode, hp, hf, h]

theorem runEncode_conversion {s : State} {rom : List Byte} (hp : s.phase ≠ .done) (hf : s.final = false)
    (h : rom.length = 4096) : runEncode rom s = runConversion (imageOf rom h) s := by
  simp [runEncode, hp, hf, h, imageOf]

/-! The container (R100, R214). -/

theorem containerHeader_length (n : Nat) : (containerHeader n).length = 44 := rfl

/-- `le32` read back, low byte first (R11). -/
theorem ofDigits_le32 {v : Nat} (h : v < 2 ^ 32) : Nat.ofDigits 256 ((le32 v).map BitVec.toNat) = v := by
  simp only [le32, List.map_cons, List.map_nil, BitVec.toNat_ofNat, Nat.ofDigits_cons, Nat.ofDigits_nil]
  omega

/-! The obligations on single operations. -/

/-- Settles O7. -/
theorem resetStateFields : Obligations.ResetStateFields :=
  ⟨rfl, rfl, rfl, rfl, fun t => by cases t <;> rfl, fun t => by cases t <;> rfl, rfl, rfl, rfl, rfl, rfl, rfl, rfl, rfl,
    rfl, rfl, rfl⟩

/-- Settles O8. -/
theorem resetCompletesEverywhere : Obligations.ResetCompletesEverywhere := exec_reset

/-- Settles O9. -/
theorem synthFillsItsTable : Obligations.SynthFillsItsTable := fun _ hr =>
  ⟨exec_of_completed (by simp) hr rfl, exec_of_completed (by simp) hr rfl, exec_of_completed (by simp) hr rfl⟩

/-- Settles O11: each law is read off the literal tables. -/
theorem tablesAreBalanced : Obligations.TablesAreBalanced := by
  intro t
  cases t <;> exact ⟨by decide, by decide, by decide, by decide⟩

/-- Settles O13: the two tables have 6 and 10 samples, so the byte's symbols have 48 + 4 for each 1 bit. -/
theorem wbyteLengthLaw : Obligations.WbyteLengthLaw := by
  intro s t b ht hn
  obtain ⟨z, o, hz, ho, rfl⟩ := sendByte_inv (body_completed_of_exec (i := .wbyte b) (by simp) ht hn)
  rw [bufAppend_len, symbols_length (tableZero_length hz) (tableOne_length ho), Nat.add_assoc]

/-- Settles O14: the checks of `WBYTE` in their order, then the sink's limit. -/
theorem wbyteRefusals : Obligations.WbyteRefusals := by
  intro s b hr
  refine ⟨fun hf => ?_, fun hf ht => ?_, fun zero one hf hz ho hs hl => ?_⟩
  · exact exec_of_refused (by simp) hr (sendByte_refused (.inl ⟨hf, rfl⟩) b)
  · exact exec_of_refused (by simp) hr (sendByte_refused (.inr ⟨hf, ht, rfl⟩) b)
  · refine exec_of_refused (by simp) hr ?_
    exact (sendBytes_singleton b s).symm.trans
      (sendBytes_full hf (table_zero hz) (table_one ho) hs (by simpa using hl))

/-- Settles O15: the floor of a quotient of integers is their integer quotient. -/
theorem repeatCountIsFloor : Obligations.RepeatCountIsFloor := by
  intro d hd hn
  have hquot : (d.num : ℚ) / d.den * (11025 / 16) = ((d.num * 11025 : ℤ) : ℚ) / ((16 * d.den : ℕ) : ℚ) := by
    have hden : (d.den : ℚ) ≠ 0 := by exact_mod_cast hd
    push_cast
    field_simp
  rw [hquot, Rat.floor_intCast_div_natCast, repeatCount_eq_ediv hn]

/-- Settles O16: the copies of the byte fit, each of at most 80 samples. -/
theorem wdurRepeatsTheByte : Obligations.WdurRepeatsTheByte := by
  intro s b d zero one hr hf hz ho hd hn hl
  have hfit := flatMap_symbols_le zero.length_toList one.length_toList (List.replicate (repeatCount d) b)
  rw [List.length_replicate] at hfit
  rw [← List.flatMap_replicate]
  exact exec_of_appends (by simp) hr
    (sendDuration_completed ((durationOk_iff d).mpr ⟨hd, hn⟩) hf (table_zero hz) (table_one ho) (by omega))

/-- Settles O17: the count is 0, and nothing is sent no times. -/
theorem wdurOfCountZeroChangesNothing : Obligations.WdurOfCountZeroChangesNothing := by
  intro s b d hr hd hn hlt
  refine exec_of_completed (by simp) hr ?_
  show sendDuration b d s = _
  rw [sendDuration_eq ((durationOk_iff d).mpr ⟨hd, hn⟩), repeatCount_eq_zero hn hlt]
  rfl

/-- Settles O18. -/
theorem wdurRefusesBadDurations : Obligations.WdurRefusesBadDurations := by
  intro s b d hr hbad
  have hd : ¬ durationOk d = true := by rw [durationOk_iff]; omega
  exact exec_of_refused (by simp) hr (if_neg hd)

/-- Settles O20: the two checks of the sink. -/
theorem pushRefusals : Obligations.PushRefusals := fun _ seq hr =>
  ⟨fun hf => exec_of_refused (by simp) hr (pushSamples_final seq hf),
    fun hf hl => exec_of_refused (by simp) hr (pushSamples_full hf hl)⟩

/-- Settles O21. -/
theorem finalizeSerializesTheBuffer : Obligations.FinalizeSerializesTheBuffer := fun _ hr =>
  exec_of_completed (by simp) hr rfl

/-- Settles O22: `FINALIZE` leaves `BUF`, so the second writes the same container. -/
theorem finalizeAgainChangesNothing : Obligations.FinalizeAgainChangesNothing := by
  intro s t hr ht
  rw [finalizeSerializesTheBuffer s hr] at ht
  cases ht
  exact finalizeSerializesTheBuffer _ hr

/-- Settles O23: the header is 44 bytes whatever the buffer, and only its two size fields depend on `LEN`. -/
theorem containerLayout : Obligations.ContainerLayout := by
  intro buf hl
  have hmax : buf.length ≤ 4294967259 := hl
  refine ⟨List.drop_left' (containerHeader_length _), ?_, rfl, rfl, ?_, ?_⟩
  · rw [container, List.length_append, containerHeader_length]
    rfl
  · exact ofDigits_le32 (v := 36 + buf.length) (by omega)
  · exact ofDigits_le32 (v := buf.length) (by omega)

/-- Settles O25: `HDR` is read where it holds a value, else eight free bytes are. -/
theorem hcsumWritesCsum : Obligations.HcsumWritesCsum := fun s hr =>
  ⟨fun _ hh => exec_of_completed (by simp) hr (runHcsum_some hh),
    fun hh => ⟨headerChecksum (freeHeader s.freeIx), exec_of_completed (by simp) hr (runHcsum_none hh)⟩⟩

/-- Settles O26: sixteen values. -/
theorem pageNumberLaw : Obligations.PageNumberLaw := ⟨by decide, by unfold Function.Injective; decide⟩

/-- Settles O27. -/
theorem pageWritesThePageRegister : Obligations.PageWritesThePageRegister := fun s _ hr =>
  ⟨fun h => exec_of_completed (by simp) hr (runPage_completed h s),
    fun h => exec_of_refused (by simp) hr (runPage_outOfDomain h s)⟩

/-- Settles O29. -/
theorem bcsumWritesCsum : Obligations.BcsumWritesCsum := fun _ _ _ hr => exec_of_completed (by simp) hr rfl

/-- Settles O39. -/
theorem wrongSizedImageFaults : Obligations.WrongSizedImageFaults := fun _ _ hr hp hf hl =>
  exec_of_completed (by simp) (ready_of_idle hr hp) (runEncode_wrongSize (by simp [hp]) hf hl)

/-- Settles O40: `Faulted` is told before the body runs, the other two are the body's first checks. -/
theorem encodeRefusalsComeFirst : Obligations.EncodeRefusalsComeFirst := by
  intro s rom hr
  refine ⟨fun hp => exec_faulted (by simp) hr hp, fun hp => ?_, fun hp hf => ?_⟩
  · exact exec_of_refused (by simp) ⟨hr, by simp [hp]⟩ (runEncode_done rom hp)
  · exact exec_of_refused (by simp) (ready_of_idle hr hp) (runEncode_final rom (by simp [hp]) hf)

/-- Settles O50. -/
theorem faultIsLeftOnlyByReset : Obligations.FaultIsLeftOnlyByReset := fun _ _ hi hp hr => exec_faulted hi hr hp

/-- Settles O55: with a count of 1 or more the first byte is sent, and refused. -/
theorem wdurRefusedThroughWbyte : Obligations.WdurRefusedThroughWbyte := by
  intro s b d r hr hd hcount href
  obtain ⟨n, hn⟩ := Nat.exists_eq_succ_of_ne_zero (repeatCount_pos hd hcount).ne'
  refine exec_of_refused (by simp) hr ?_
  show sendDuration b d s = _
  rw [sendDuration_eq ((durationOk_iff d).mpr ⟨hd, by omega⟩), hn, List.replicate_succ, sendBytes,
    sendByte_refused href, andThen_refused]

end Sys2Proof.Machine

/-! SUPPORT. The tone tables held against the sine (R131): the sine of a rational angle near the true one, by its series, is
near enough to fix every rounded sample. -/

namespace Sys2Proof.Machine

/-- The angle `2π·i/n` with 355/113 for π. -/
def ratAngle (n i : ℕ) : ℚ := 710 * i / (113 * n)

/-- 355/113 is within a millionth of π, so the angle within two on a whole turn. -/
theorem abs_angle_sub_ratAngle_le {n i : ℕ} (h : i < n) :
    |2 * Real.pi * (i : ℝ) / (n : ℝ) - (ratAngle n i : ℝ)| ≤ 2 / 1000000 := by
  have hn : (0 : ℝ) < n := by exact_mod_cast Nat.zero_lt_of_lt h
  have hturn0 : (0 : ℝ) ≤ (i : ℝ) / n := by positivity
  have hturn1 : (i : ℝ) / n ≤ 1 := (div_le_one hn).mpr (by exact_mod_cast h.le)
  have hsub : 2 * Real.pi * (i : ℝ) / n - (ratAngle n i : ℝ) = 2 * (Real.pi - 355 / 113) * ((i : ℝ) / n) := by
    rw [ratAngle]
    push_cast
    field_simp
    ring
  have hpi : |2 * (Real.pi - 355 / 113)| ≤ 2 / 1000000 := by
    have hgt := Real.pi_gt_d6
    have hlt := Real.pi_lt_d6
    rw [abs_le]
    constructor <;> norm_num at hgt hlt ⊢ <;> linarith
  rw [hsub, abs_mul, abs_of_nonneg hturn0]
  exact (mul_le_of_le_one_right (abs_nonneg _) hturn1).trans hpi

/-- The series at the rational angle is within three millionths of the sine at the true one. -/
theorem abs_sin_angle_sub_sinSeries_le {n i : ℕ} (h : i < n) :
    |Real.sin (2 * Real.pi * (i : ℝ) / (n : ℝ)) - (sinSeries (ratAngle n i) : ℝ)| ≤ 3 / 1000000 := by
  have hn : (0 : ℚ) < n := by exact_mod_cast Nat.zero_lt_of_lt h
  have hq0 : 0 ≤ ratAngle n i := by rw [ratAngle]; positivity
  have hq7 : ratAngle n i ≤ 7 := by
    have hi : (i : ℚ) ≤ n := by exact_mod_cast h.le
    rw [ratAngle, div_le_iff₀ (by positivity)]
    linarith
  have hlip : |Real.sin (2 * Real.pi * (i : ℝ) / (n : ℝ)) - Real.sin (ratAngle n i)| ≤ 2 / 1000000 := by
    have hdist := Real.lipschitzWith_sin.dist_le_mul (2 * Real.pi * (i : ℝ) / (n : ℝ)) (ratAngle n i)
    rw [NNReal.coe_one, one_mul, Real.dist_eq, Real.dist_eq] at hdist
    exact hdist.trans (abs_angle_sub_ratAngle_le h)
  have hseries := abs_sin_sub_sinSeries_le hq0 hq7
  have hsum := (abs_sub_le _ _ _).trans (add_le_add hlip hseries)
  linarith

/-- The sample of tone `t` at entry `i` before the floor, by the series. -/
def ratSample (t : Tone) (i : ℕ) : ℚ :=
  (sinSeries (ratAngle (toneCycle t) i) * ((toneVolume t).num / (toneVolume t).den) + 1) * 128 + 1 / 2

/-- The formula of R131 is within a thousandth of the sample by the series, since no volume passes 1. -/
theorem abs_formula_sub_ratSample_le {t : Tone} {i : ℕ} (h : i < toneCycle t) :
    |((Real.sin (2 * Real.pi * (i : ℝ) / (toneCycle t : ℝ))
        * (((toneVolume t).num : ℝ) / ((toneVolume t).den : ℝ)) + 1) * 128 + 1 / 2) - (ratSample t i : ℝ)|
      < 1 / 1000 := by
  have hvolume : ((toneVolume t).num : ℝ) / ((toneVolume t).den : ℝ) = 49 / 50 := by
    cases t <;> norm_num [toneVolume, Config.cfg]
  have hvolumeRat : ((toneVolume t).num : ℚ) / ((toneVolume t).den : ℚ) = 49 / 50 := by
    cases t <;> norm_num [toneVolume, Config.cfg]
  obtain ⟨hlow, hhigh⟩ := abs_le.mp (abs_sin_angle_sub_sinSeries_le h)
  rw [ratSample, hvolume, hvolumeRat, abs_lt]
  push_cast
  constructor <;> linarith

/-- A number within a thousandth of one that keeps that distance from the integers around it has its floor. -/
theorem floor_eq_of_near {x : ℝ} {q : ℚ} {v : ℤ} (hx : |x - q| < 1 / 1000) (hlow : v + 1 / 1000 ≤ q)
    (hhigh : q ≤ v + 1 - 1 / 1000) : ⌊x⌋ = v := by
  have hlowR : ((v + 1 / 1000 : ℚ) : ℝ) ≤ q := Rat.cast_le.mpr hlow
  have hhighR : (q : ℝ) ≤ ((v + 1 - 1 / 1000 : ℚ) : ℝ) := Rat.cast_le.mpr hhigh
  push_cast at hlowR hhighR
  obtain ⟨hgt, hlt⟩ := abs_lt.mp hx
  rw [Int.floor_eq_iff]
  constructor <;> linarith

/-- The literal tables are the samples by the series, with a thousandth to spare. -/
theorem toneValues_near_ratSample (t : Tone) : ∀ i < toneCycle t,
    ((((toneValues t).getD i 0).toNat : ℤ) + 1 / 1000 : ℚ) ≤ ratSample t i
      ∧ ratSample t i ≤ (((toneValues t).getD i 0).toNat : ℤ) + 1 - 1 / 1000 := by
  cases t <;> decide +kernel

theorem toneValues_length (t : Tone) : (toneValues t).length = toneCycle t := by cases t <;> rfl

/-- Settles O10: each literal entry is the floor of its series sample, which is too near the formula to have another. -/
theorem tablesRoundTheSine : Obligations.TablesRoundTheSine := by
  refine fun t => ⟨toneValues_length t, fun i hi => ?_⟩
  have hcycle : i < toneCycle t := toneValues_length t ▸ hi
  obtain ⟨hlow, hhigh⟩ := toneValues_near_ratSample t i hcycle
  rw [← List.getD_eq_getElem _ 0 hi]
  exact (floor_eq_of_near (abs_formula_sub_ratSample_le hcycle) hlow hhigh).symm

end Sys2Proof.Machine

/-! SUPPORT. The steps of `ENCODE` that write registers and send: where they fit, where they are refused, and where they
pass `LEN_MAX` (R176, R178, R219). -/

namespace Sys2Proof.Machine

/-! Lengths of the streams (R98, R99). -/

theorem popcount_sum_le (l : List Byte) : (l.map popcount).sum ≤ 8 * l.length := by
  induction l with
  | nil => rfl
  | cons b l ih =>
    have hb := popcount_le b
    simp only [List.map_cons, List.sum_cons, List.length_cons]
    omega

theorem tapeBytes_length (image : Image) : (tapeBytes image).length = 4825 := by
  have hheader : (headerBytes (headerOf image)).length = 8 := rfl
  simp only [tapeBytes, List.length_append, List.length_replicate, List.length_singleton, blockRecords_length, hheader]

/-- 86 cycles of 51 samples, then 48 for each byte of the tape and 4 for each 1 bit. -/
theorem sampleStream_length (image : Image) :
    (sampleStream image).length = 235986 + 4 * ((tapeBytes image).map popcount).sum := by
  have htone : (List.replicate 86 (toneValues .start)).flatten.length = 4386 := tableCopies_length 86 startTableValues
  have hbytes : ((tapeBytes image).flatMap byteSymbols).length = _ :=
    flatMap_symbols_length (z := toneValues .zero) (o := toneValues .one) rfl rfl (tapeBytes image)
  rw [sampleStream, List.length_append, htone, hbytes, tapeBytes_length]
  omega

theorem sampleStream_length_le (image : Image) : (sampleStream image).length ≤ 390386 := by
  have hbits := popcount_sum_le (tapeBytes image)
  rw [tapeBytes_length] at hbits
  rw [sampleStream_length]
  omega

/-! Sends as sink writes. -/

theorem symbolWrites_append (z o as bs : List Byte) :
    symbolWrites z o (as ++ bs) = symbolWrites z o as ++ symbolWrites z o bs := by
  simp [symbolWrites]

/-- Where `WBYTE` is refused, a sequence of bytes is at its first. -/
theorem sendBytes_refused {s : State} {r : Reason} (h : s.sendRefused r) {bytes : List Byte} (hb : bytes ≠ []) :
    sendBytes bytes s = .refused r s := by
  obtain ⟨b, bs, rfl⟩ := List.exists_cons_of_ne_nil hb
  rw [sendBytes, sendByte_refused h, andThen_refused]

/-! `STONE` (R174). -/

theorem runStone_eq {s : State} {tone : List Byte} (h : s.table .start = some tone) :
    runStone s = pushAll (List.replicate 86 tone) s := by
  simp only [runStone, h, startCycles_eq, repeatRun_pushSamples_eq]

theorem runStone_tableInvalid {s : State} (h : s.tableStart = none) : runStone s = .refused .tableInvalid s := by
  simp [runStone, State.table, h]

/-! `HEADER` (R176). -/

/-- The registers and records `HEADER` writes before it sends. -/
def headerRegs (image : Image) (s : State) : State :=
  emitDiag (headerDiag (headerOf image)) (writeCsum (headerOf image).checksum (writeHdr (headerOf image) s))

/-- The five records of an image's header: its address, then the constants (R256). -/
theorem headerDiag_headerOf (image : Image) : headerDiag (headerOf image)
    = [.address (image[4093] ++ image[4092]), .bankConfig 0x1d, .blockCount 0x10, .multiload 0x00, .loadSpeed 0x01c3] := by
  have hspeed : half 0x01 0xc3 = 0x01c3 := by decide
  rw [← hspeed]
  rfl

/-! `BLOCK` (R178). -/

/-- The registers and the record `BLOCK` of index `b` writes before it sends. -/
def recordRegs (image : Image) (b : Fin 16) (s : State) : State :=
  emitDiag [blockDiag image b] (writeCsum (blockChecksum (pageNumber b) (blockData image b)) (writePage (pageNumber b) s))

/-- The same with `BLK`, which `BLOCK` writes last. -/
def blockRegs (image : Image) (s : State) (b : Fin 16) : State := writeBlk (b.val + 1) (recordRegs image b s)

theorem sendBlock_eq (image : Image) (b : Fin 16) (s : State) :
    sendBlock image b s = (sendBytes (blockRecord image b) (recordRegs image b s)).andThen fun u =>
      .completed (writeBlk (b.val + 1) u) := rfl

theorem runBlock_eq {s : State} {image : Image} {b : Fin 16} (h : s.blk.toNat = b.val) :
    runBlock image s = sendBlock image b s := by
  have hlt : s.blk.toNat < 16 := by omega
  have hb : (⟨s.blk.toNat, hlt⟩ : Fin 16) = b := Fin.ext h
  simp [runBlock, hlt, hb]

theorem runBlock_outOfDomain {s : State} (image : Image) (h : 16 ≤ s.blk.toNat) :
    runBlock image s = .refused .outOfDomain s := dif_neg (Nat.not_lt.mpr h)

theorem blockRecord_ne_nil (image : Image) (b : Fin 16) : blockRecord image b ≠ [] := by simp [blockRecord]

theorem sendBlock_refused {s : State} {r : Reason} (h : s.sendRefused r) (image : Image) (b : Fin 16) :
    sendBlock image b s = .refused r (recordRegs image b s) := by
  rw [sendBlock_eq, sendBytes_refused (s := recordRegs image b s) h (blockRecord_ne_nil image b), andThen_refused]

theorem sendBlock_full {s : State} {image : Image} {b : Fin 16} {z o : List Byte} (hf : s.final = false)
    (hz : s.table .zero = some z) (ho : s.table .one = some o) (hs : s.len ≤ Config.lenMax)
    (hl : Config.lenMax < s.len + 48 * 258 + 4 * ((blockRecord image b).map popcount).sum) :
    sendBlock image b s = .refused .bufferFull (bufAppend (recordRegs image b s)
      (fitting (Config.lenMax - s.len) (symbolWrites z o (blockRecord image b)))) := by
  rw [sendBlock_eq, sendBytes_full (s := recordRegs image b s) hf (by simpa [recordRegs] using hz)
    (by simpa [recordRegs] using ho) hs (by rw [blockRecord_length]; exact hl), andThen_refused]
  rfl

/-! The obligations on the steps driven alone. -/

/-- Settles O34: the eight bytes fit, at most 80 samples each. -/
theorem headerFillsAndSends : Obligations.HeaderFillsAndSends := by
  intro s image zero one hr hf hz ho hl
  have hfit := flatMap_symbols_le zero.length_toList one.length_toList (headerBytes (headerOf image))
  have hbytes : (headerBytes (headerOf image)).length = 8 := rfl
  rw [exec_of_completed (i := .header image) (by simp) hr
    (runHeader_completed hf (table_zero hz) (table_one ho) (by omega)), afterHeader, bufAppend_eq, headerDiag_headerOf]
  rfl

/-- Settles O36: the record fits, at most 80 samples each byte; a block from 16 up has no page. -/
theorem blockSendsOneRecord : Obligations.BlockSendsOneRecord := by
  intro s image hr
  refine ⟨fun b zero one hf hz ho hb hl => ?_, fun h => ?_⟩
  · have hfit := flatMap_symbols_le zero.length_toList one.length_toList (blockRecord image b)
    rw [blockRecord_length] at hfit
    have hblk : BitVec.ofNat 5 (b.val + 1) = s.blk + 1 := by bv_omega
    have hbody : bodyOf (.block image) s = _ :=
      (runBlock_eq hb).trans (sendBlock_completed hf (table_zero hz) (table_one ho) (by omega))
    rw [exec_of_completed (by simp) hr hbody, afterBlock, bufAppend_eq, ← hblk]
    rfl
  · exact exec_of_refused (by simp) hr (runBlock_outOfDomain image h)

/-- Settles O37. -/
theorem streamLengths : Obligations.StreamLengths := fun image =>
  ⟨tapeBytes_length image, sampleStream_length image, sampleStream_length_le image⟩

/-- Settles O56: each step sends bytes, and the first of them is refused. -/
theorem stepRefusals : Obligations.StepRefusals := by
  intro s image hr
  refine ⟨fun ht => ?_, fun tone ht hf => ?_, fun r href => ⟨?_, ?_, ?_, fun b hb => ?_⟩⟩
  · exact exec_of_refused (by simp) hr (runStone_tableInvalid ht)
  · refine exec_of_refused (by simp) hr ((runStone_eq (table_start ht)).trans ?_)
    rw [List.replicate_succ, pushAll, pushSamples_final _ hf, andThen_refused]
  · exact exec_of_refused (by simp) hr ((runCalib_eq s).trans
      (sendBytes_refused href (List.append_ne_nil_of_right_ne_nil _ (by simp))))
  · exact exec_of_refused (by simp) hr ((runTrailer_eq s).trans (sendBytes_refused href (List.cons_ne_nil _ _)))
  · exact exec_of_refused (t := headerRegs image s) (by simp) hr
      (sendBytes_refused (s := headerRegs image s) href (by simp [headerBytes]))
  · exact exec_of_refused (t := recordRegs image b s) (by simp) hr
      ((runBlock_eq hb).trans (sendBlock_refused href image b))

/-- Settles O57: each operation sends bytes or cycles past the limit, on the registers its earlier lines wrote. -/
theorem sendingPastTheLimit : Obligations.SendingPastTheLimit := by
  intro s image hr hf hs
  refine ⟨fun tone ht hl => ?_, fun zero one hz ho => ⟨fun b d hd hn hl => ?_, fun hl => ?_, fun hl => ?_, fun hl => ?_,
    fun b hb hl => ?_⟩⟩
  · exact exec_of_refused (by simp) hr ((runStone_eq (table_start ht)).trans
      (pushAll_full hf hs (by simpa using hl)))
  · refine exec_of_refused (by simp) hr ((sendDuration_eq ((durationOk_iff d).mpr ⟨hd, hn⟩) s).trans
      (sendBytes_full hf (table_zero hz) (table_one ho) hs ?_))
    simp only [List.length_replicate, List.map_replicate, List.sum_replicate, smul_eq_mul]
    rw [Nat.mul_add] at hl
    linarith
  · refine exec_of_refused (by simp) hr ((runCalib_eq s).trans
      (sendBytes_full hf (table_zero hz) (table_one ho) hs ?_))
    have hlen := calibration_length zero.length_toList one.length_toList
    rw [flatMap_symbols_length zero.length_toList one.length_toList] at hlen
    omega
  · refine exec_of_refused (by simp) hr ((runTrailer_eq s).trans
      (sendBytes_full hf (table_zero hz) (table_one ho) hs ?_))
    rw [List.length_replicate]
    omega
  · exact exec_of_refused (i := .header image) (by simp) hr (sendBytes_full (s := headerRegs image s)
      (bytes := headerBytes (headerOf image)) hf (by simpa [headerRegs] using table_zero hz)
      (by simpa [headerRegs] using table_one ho) hs hl)
  · exact exec_of_refused (i := .block image) (by simp) hr
      ((runBlock_eq hb).trans (sendBlock_full hf (table_zero hz) (table_one ho) hs hl))

end Sys2Proof.Machine

/-! SUPPORT. The conversion of `ENCODE` as register updates and sink writes: each step, then their sequence, sends its
writes to the end or as far as `LEN_MAX` lets it (R170, R171, R219). -/

namespace Sys2Proof.Machine

/-! What fits of a sequence of writes. -/

theorem fitting_append_of_le {room : Nat} {ws vs : List (List Byte)} (h : ws.flatten.length ≤ room) :
    fitting room (ws ++ vs) = ws.flatten ++ fitting (room - ws.flatten.length) vs := by
  induction ws generalizing room with
  | nil => simp
  | cons w ws ih =>
    rw [List.flatten_cons, List.length_append] at h
    rw [List.cons_append, fitting, if_pos (by omega), ih (by omega), List.flatten_cons, List.length_append,
      Nat.sub_sub, List.append_assoc]

theorem fitting_append_of_lt {room : Nat} {ws : List (List Byte)} (h : room < ws.flatten.length)
    (vs : List (List Byte)) : fitting room (ws ++ vs) = fitting room ws := by
  induction ws generalizing room with
  | nil => simp at h
  | cons w ws ih =>
    rw [List.flatten_cons, List.length_append] at h
    simp only [List.cons_append, fitting]
    split
    · rw [ih (by omega)]
    · rfl

/-! Steps as register updates and sink writes. -/

/-- An update of the registers and records a step writes: the status fields, the tables and `BUF` stay, and it does not
matter whether samples go out before or after. -/
structure RegisterUpdate (f : State → State) : Prop where
  phase : ∀ s, (f s).phase = s.phase
  final : ∀ s, (f s).final = s.final
  table : ∀ s t, (f s).table t = s.table t
  buf : ∀ s, (f s).buf = s.buf
  bufAppend : ∀ s x, f (bufAppend s x) = bufAppend (f s) x

theorem RegisterUpdate.id : RegisterUpdate id := ⟨fun _ => rfl, fun _ => rfl, fun _ _ => rfl, fun _ => rfl, fun _ _ => rfl⟩

theorem RegisterUpdate.comp {f g : State → State} (hg : RegisterUpdate g) (hf : RegisterUpdate f) :
    RegisterUpdate (g ∘ f) where
  phase s := (hg.phase _).trans (hf.phase s)
  final s := (hg.final _).trans (hf.final s)
  table s t := (hg.table _ t).trans (hf.table s t)
  buf s := (hg.buf _).trans (hf.buf s)
  bufAppend s x := (congrArg g (hf.bufAppend s x)).trans (hg.bufAppend _ x)

theorem RegisterUpdate.len {f : State → State} (h : RegisterUpdate f) (s : State) : (f s).len = s.len :=
  congrArg List.length (h.buf s)

/-- Where the steps of a conversion run: an open buffer, every table at its preset. -/
def State.sending (s : State) : Prop := s.final = false ∧ ∀ t, s.table t = some (toneValues t)

theorem RegisterUpdate.sending {f : State → State} (h : RegisterUpdate f) {s : State} (hs : s.sending) :
    (f s).sending := ⟨(h.final s).trans hs.1, fun t => (h.table s t).trans (hs.2 t)⟩

theorem bufAppend_sending {s : State} (hs : s.sending) (x : List Byte) : (bufAppend s x).sending :=
  ⟨hs.1, fun t => (bufAppend_table s x t).trans (hs.2 t)⟩

/-- `k` updates the registers by `f` and sends the writes `ws`; where they do not all fit it is refused with `BufferFull`,
what fits sent and some of the registers written (log entries 9, 25). -/
structure Sends (k : State → Run) (f : State → State) (ws : List (List Byte)) : Prop where
  regs : RegisterUpdate f
  fits : ∀ s, s.sending → s.len + ws.flatten.length ≤ Config.lenMax → k s = .completed (bufAppend (f s) ws.flatten)
  full : ∀ s, s.sending → s.len ≤ Config.lenMax → Config.lenMax < s.len + ws.flatten.length →
    ∃ g, RegisterUpdate g ∧ k s = .refused .bufferFull (bufAppend (g s) (fitting (Config.lenMax - s.len) ws))

/-- A completed step leaves the next one in a state to send from, so the writes of both follow each other. -/
theorem Sends.andThen {k l : State → Run} {f g : State → State} {ws vs : List (List Byte)} (hk : Sends k f ws)
    (hl : Sends l g vs) : Sends (fun s => (k s).andThen l) (g ∘ f) (ws ++ vs) where
  regs := hl.regs.comp hk.regs
  fits s hs hlen := by
    rw [List.flatten_append, List.length_append] at hlen
    rw [hk.fits s hs (by omega), andThen_completed,
      hl.fits _ (bufAppend_sending (hk.regs.sending hs) _) (by rw [bufAppend_len, hk.regs.len]; omega),
      hl.regs.bufAppend, bufAppend_bufAppend, List.flatten_append]
    rfl
  full s hs hmax hlen := by
    rw [List.flatten_append, List.length_append] at hlen
    by_cases hfirst : s.len + ws.flatten.length ≤ Config.lenMax
    · have hroom : (bufAppend (f s) ws.flatten).len = s.len + ws.flatten.length := by
        rw [bufAppend_len, hk.regs.len]
      obtain ⟨g', hg', hrun⟩ := hl.full _ (bufAppend_sending (hk.regs.sending hs) ws.flatten) (by omega) (by omega)
      refine ⟨g' ∘ f, hg'.comp hk.regs, ?_⟩
      rw [hk.fits s hs hfirst, andThen_completed, hrun, hg'.bufAppend, bufAppend_bufAppend, hroom,
        fitting_append_of_le (by omega), Nat.sub_sub]
      rfl
    · obtain ⟨g', hg', hrun⟩ := hk.full s hs hmax (by omega)
      exact ⟨g', hg', by rw [hrun, andThen_refused, fitting_append_of_lt (by omega)]⟩

/-- Sending a byte sequence after a register update. -/
theorem sendBytes_sends {f : State → State} (hf : RegisterUpdate f) (bytes : List Byte) :
    Sends (fun s => sendBytes bytes (f s)) f (symbolWrites (toneValues .zero) (toneValues .one) bytes) where
  regs := hf
  fits s hs hlen := by
    obtain ⟨hfinal, htable⟩ := hf.sending hs
    rw [sendBytes_eq hfinal (htable .zero) (htable .one), pushAll_completed hfinal (by rwa [hf.len])]
  full s hs hmax hlen := by
    obtain ⟨hfinal, htable⟩ := hf.sending hs
    refine ⟨f, hf, ?_⟩
    rw [sendBytes_eq hfinal (htable .zero) (htable .one), pushAll_full hfinal (by rwa [hf.len]) (by rwa [hf.len]),
      hf.len]

/-- A register update after which nothing is sent. -/
theorem sends_of_regs {f : State → State} (hf : RegisterUpdate f) : Sends (fun s => .completed (f s)) f [] where
  regs := hf
  fits s _ _ := by simp
  full s _ hmax hlen := by simp at hlen; omega

theorem Sends.after_regs {k : State → Run} {f g : State → State} {ws : List (List Byte)} (hk : Sends k f ws)
    (hg : RegisterUpdate g) : Sends (fun s => k (g s)) (f ∘ g) ws := (sends_of_regs hg).andThen hk

theorem runStone_sends : Sends runStone id (List.replicate 86 (toneValues .start)) where
  regs := .id
  fits s hs hlen := by rw [runStone_eq (hs.2 .start), pushAll_completed hs.1 hlen]; rfl
  full s hs hmax hlen := ⟨id, .id, by rw [runStone_eq (hs.2 .start), pushAll_full hs.1 hmax hlen]; rfl⟩

theorem runCalib_sends : Sends runCalib id
    (symbolWrites (toneValues .zero) (toneValues .one) (List.replicate 344 0x55 ++ [0x54])) := by
  rw [funext runCalib_eq]
  exact sendBytes_sends .id _

theorem runTrailer_sends : Sends runTrailer id
    (symbolWrites (toneValues .zero) (toneValues .one) (List.replicate 344 0x00)) := by
  rw [funext runTrailer_eq]
  exact sendBytes_sends .id _

theorem headerRegs_update (image : Image) : RegisterUpdate (headerRegs image) :=
  ⟨fun _ => rfl, fun _ => rfl, fun _ t => by cases t <;> rfl, fun _ => rfl, fun _ _ => rfl⟩

theorem runHeader_sends (image : Image) : Sends (runHeader image) (headerRegs image)
    (symbolWrites (toneValues .zero) (toneValues .one) (headerBytes (headerOf image))) :=
  sendBytes_sends (headerRegs_update image) _

theorem recordRegs_update (image : Image) (b : Fin 16) : RegisterUpdate (recordRegs image b) :=
  ⟨fun _ => rfl, fun _ => rfl, fun _ t => by cases t <;> rfl, fun _ => rfl, fun _ _ => rfl⟩

theorem writeBlk_update (n : Nat) : RegisterUpdate (writeBlk n) :=
  ⟨fun _ => rfl, fun _ => rfl, fun s => writeBlk_table s n, fun _ => rfl, fun _ _ => rfl⟩

theorem sendBlock_sends (image : Image) (b : Fin 16) : Sends (sendBlock image b) (fun s => blockRegs image s b)
    (symbolWrites (toneValues .zero) (toneValues .one) (blockRecord image b)) := by
  have h := (sendBytes_sends (recordRegs_update image b) (blockRecord image b)).andThen
    (sends_of_regs (writeBlk_update (b.val + 1)))
  rwa [List.append_nil] at h

/-! The sixteen blocks. -/

/-- Blocks sent one after another. -/
def sendBlocks (image : Image) : List (Fin 16) → State → Run
  | [], s => .completed s
  | b :: bs, s => (sendBlock image b s).andThen (sendBlocks image bs)

theorem sendBlocks_sends (image : Image) (bs : List (Fin 16)) :
    Sends (sendBlocks image bs) (fun s => bs.foldl (blockRegs image) s)
      (symbolWrites (toneValues .zero) (toneValues .one) (bs.flatMap (blockRecord image))) := by
  induction bs with
  | nil => exact sends_of_regs .id
  | cons b bs ih =>
    rw [List.flatMap_cons, symbolWrites_append]
    exact (sendBlock_sends image b).andThen ih

/-- A completed block has counted `BLK` up. -/
theorem sendBlock_blk {image : Image} {b : Fin 16} {s u : State} (h : sendBlock image b s = .completed u) :
    u.blk.toNat = b.val + 1 := by
  obtain ⟨v, _, hv⟩ := andThen_inv h
  cases hv
  rw [writeBlk_blk, BitVec.toNat_ofNat, Nat.mod_eq_of_lt (by omega)]

/-- `BLOCK` repeated is the blocks from `BLK` on, each naming the next. -/
theorem repeatRun_runBlock_eq (image : Image) {bs : List (Fin 16)} {n : Nat} {s : State}
    (h : bs.map Fin.val = List.range' s.blk.toNat n) : repeatRun (runBlock image) n s = sendBlocks image bs s := by
  induction n generalizing s bs with
  | zero =>
    obtain rfl := List.map_eq_nil_iff.mp h
    rfl
  | succ n ih =>
    obtain ⟨b, bs, rfl, hb, hbs⟩ := List.map_eq_cons_iff.mp (h.trans List.range'_succ)
    rw [repeatRun, sendBlocks, runBlock_eq hb.symm]
    cases hrun : sendBlock image b s with
    | refused r u => rfl
    | completed u => exact ih (by rw [hbs, sendBlock_blk hrun, hb])

/-- What the registers hold after blocks of which `b` was the last. -/
theorem foldl_blockRegs (image : Image) (bs : List (Fin 16)) (b : Fin 16) (s : State) :
    (bs ++ [b]).foldl (blockRegs image) s = { s with
      page := some (pageNumber b)
      csum := some (blockChecksum (pageNumber b) (blockData image b))
      diag := s.diag ++ (bs ++ [b]).map (blockDiag image)
      blk := BitVec.ofNat 5 (b.val + 1) } := by
  induction bs generalizing s with
  | nil => rfl
  | cons a bs ih =>
    rw [List.cons_append, List.foldl_cons, ih]
    simp [blockRegs, recordRegs]

/-! The whole conversion. -/

/-- The state with every table at its preset (R170). -/
def presetTables (s : State) : State := synthesize .one (synthesize .zero (synthesize .start s))

theorem presetTables_table (s : State) (t : Tone) : (presetTables s).table t = some (toneValues t) := by
  cases t <;> rfl

/-- The five steps of `ENCODE` in the order of R171. -/
def sendFrame (image : Image) (s : State) : Run :=
  (runStone s).andThen fun s =>
  (runCalib s).andThen fun s =>
  (runHeader image s).andThen fun s =>
  (repeatRun (runBlock image) 16 (writeBlk 0 s)).andThen runTrailer

theorem runConversion_eq (image : Image) (s : State) :
    runConversion image s = (sendFrame image (presetTables s)).andThen fun u => .completed (setDone u) := by
  simp only [sendFrame, andThen_assoc]
  rfl

/-- What the sixteen blocks write to the registers. -/
def blocksRegs (image : Image) : State → State :=
  (fun s => (List.finRange 16).foldl (blockRegs image) s) ∘ writeBlk 0

theorem repeatRun_blocks_sends (image : Image) :
    Sends (fun s => repeatRun (runBlock image) 16 (writeBlk 0 s)) (blocksRegs image)
      (symbolWrites (toneValues .zero) (toneValues .one) (blockRecords image)) := by
  have hnumbers : (List.finRange 16).map Fin.val = List.range' (BitVec.ofNat 5 0).toNat 16 := by decide
  have hblocks : ∀ s, repeatRun (runBlock image) 16 (writeBlk 0 s) = sendBlocks image (List.finRange 16) (writeBlk 0 s) :=
    fun _ => repeatRun_runBlock_eq image hnumbers
  rw [funext hblocks, blocksRegs, blockRecords]
  exact (sendBlocks_sends image (List.finRange 16)).after_regs (writeBlk_update 0)

/-- The sink writes of one conversion: 86 start cycles, then one for each bit of the tape (R99). -/
def frameWrites (image : Image) : List (List Byte) :=
  List.replicate 86 (toneValues .start) ++ symbolWrites (toneValues .zero) (toneValues .one) (tapeBytes image)

theorem frameWrites_flatten (image : Image) : (frameWrites image).flatten = sampleStream image := by
  rw [frameWrites, List.flatten_append, symbolWrites_flatten]
  rfl

/-- What a conversion writes to the registers: the header's, then the blocks' from `BLK` at 0. -/
def frameRegs (image : Image) : State → State := blocksRegs image ∘ headerRegs image

theorem frameWrites_eq (image : Image) : frameWrites image = List.replicate 86 (toneValues .start)
    ++ (symbolWrites (toneValues .zero) (toneValues .one) (List.replicate 344 0x55 ++ [0x54])
    ++ (symbolWrites (toneValues .zero) (toneValues .one) (headerBytes (headerOf image))
    ++ (symbolWrites (toneValues .zero) (toneValues .one) (blockRecords image)
    ++ symbolWrites (toneValues .zero) (toneValues .one) (List.replicate 344 0x00)))) := by
  rw [frameWrites, tapeBytes, symbolWrites_append, symbolWrites_append, symbolWrites_append, List.append_assoc,
    List.append_assoc]

/-- The conversion's steps send the sample stream (R99, R190). -/
theorem sendFrame_sends (image : Image) : Sends (sendFrame image) (frameRegs image) (frameWrites image) := by
  have hsteps := runStone_sends.andThen (runCalib_sends.andThen ((runHeader_sends image).andThen
    ((repeatRun_blocks_sends image).andThen runTrailer_sends)))
  simp only [Function.id_comp, Function.comp_id] at hsteps
  rw [frameWrites_eq]
  exact hsteps

/-- What a conversion writes to the registers, as one record update. -/
theorem frameRegs_eq (image : Image) (s : State) : frameRegs image s = { s with
    hdr := some (headerOf image)
    page := some 0x1e
    csum := some (blockChecksum 0x1e (blockData image 15))
    diag := s.diag ++ conversionDiag image
    blk := 16 } := by
  have hlast : List.finRange 16 = (List.finRange 16).dropLast ++ [15] := by decide
  simp only [frameRegs, blocksRegs, Function.comp_apply]
  rw [hlast, foldl_blockRegs, ← hlast, conversionDiag, ← List.append_assoc]
  rfl

end Sys2Proof.Machine

/-! SUPPORT. `ENCODE` of an image of 4096 bytes: what it sends, that nothing of the image is lost, and that it is its steps
issued in order (R118, R170, R171, R190). -/

namespace Sys2Proof.Machine

/-! The conversion with room and without. -/

theorem presetTables_sending {s : State} (hf : s.final = false) : (presetTables s).sending :=
  ⟨hf, presetTables_table s⟩

theorem runConversion_completed {s : State} {image : Image} (hf : s.final = false)
    (hl : s.len + (sampleStream image).length ≤ Config.lenMax) : runConversion image s
      = .completed (setDone (bufAppend (frameRegs image (presetTables s)) (sampleStream image))) := by
  rw [runConversion_eq, (sendFrame_sends image).fits _ (presetTables_sending hf) (by rwa [frameWrites_flatten]),
    andThen_completed, frameWrites_flatten]

theorem runConversion_full {s : State} {image : Image} (hf : s.final = false) (hs : s.len ≤ Config.lenMax)
    (hl : Config.lenMax < s.len + (sampleStream image).length) : ∃ g, RegisterUpdate g ∧ runConversion image s
      = .refused .bufferFull (bufAppend (g (presetTables s)) (fitting (Config.lenMax - s.len) (frameWrites image))) := by
  obtain ⟨g, hg, hrun⟩ :=
    (sendFrame_sends image).full _ (presetTables_sending hf) hs (by rwa [frameWrites_flatten])
  exact ⟨g, hg, by rw [runConversion_eq, hrun, andThen_refused]; rfl⟩

/-! Nothing of the image is lost. -/

/-- The symbols of the two bits differ in their second sample, so they can be told apart (R118). -/
theorem bits_eq_of_flatMap_tones_eq {as bs : List Bool}
    (h : (as.flatMap fun bit => if bit then toneValues .one else toneValues .zero)
      = bs.flatMap fun bit => if bit then toneValues .one else toneValues .zero) : as = bs := by
  induction as generalizing bs with
  | nil =>
    cases bs with
    | nil => rfl
    | cons b bs => cases b <;> cases h
  | cons a as ih =>
    cases bs with
    | nil => cases a <;> cases h
    | cons b bs =>
      have hbit : a = b := by
        have hsecond := congrArg (fun l => l[1]?) h
        cases a <;> cases b <;> simp [toneValues, zeroTableValues, oneTableValues] at hsecond ⊢
      subst hbit
      rw [ih (List.append_cancel_left h)]

theorem bitsMsbFirst_injective : Function.Injective bitsMsbFirst := by
  intro a b h
  simp only [bitsMsbFirst, List.cons.injEq, and_true] at h
  obtain ⟨h7, h6, h5, h4, h3, h2, h1, h0⟩ := h
  refine BitVec.eq_of_getLsbD_eq fun i hi => ?_
  interval_cases i <;> assumption

/-- Bytes are read back from their bits, eight at a time. -/
theorem bytes_eq_of_flatMap_bits_eq {as bs : List Byte} (h : as.flatMap bitsMsbFirst = bs.flatMap bitsMsbFirst) :
    as = bs := by
  induction as generalizing bs with
  | nil =>
    cases bs with
    | nil => rfl
    | cons b bs => cases h
  | cons a as ih =>
    cases bs with
    | nil => cases h
    | cons b bs =>
      obtain ⟨hbyte, hrest⟩ := List.append_inj h rfl
      rw [bitsMsbFirst_injective hbyte, ih hrest]

theorem tapeBytes_eq_of_sampleStream_eq {A B : Image} (h : sampleStream A = sampleStream B) :
    tapeBytes A = tapeBytes B := by
  have hsymbols : (tapeBytes A).flatMap byteSymbols = (tapeBytes B).flatMap byteSymbols := List.append_cancel_left h
  have hbits : ∀ l : List Byte, l.flatMap byteSymbols
      = (l.flatMap bitsMsbFirst).flatMap fun bit => if bit then toneValues .one else toneValues .zero :=
    fun l => List.flatMap_assoc.symm
  rw [hbits, hbits] at hsymbols
  exact bytes_eq_of_flatMap_bits_eq (bits_eq_of_flatMap_tones_eq hsymbols)

/-- Every byte of the image stands on the tape, in the data of its block. -/
theorem tapeBytes_getElem?_data (image : Image) (b : Fin 16) (j : Fin 256) :
    (tapeBytes image)[353 + (258 * b.val + (2 + j.val))]? = some image[256 * b.val + j.val] := by
  rw [tapeBytes_getElem?_of_blockRecords image (by omega), blockRecords_getElem? image b (by omega),
    ← blockData_getElem?, blockRecord, Nat.add_comm]
  rfl

theorem image_eq_of_sampleStream_eq {A B : Image} (h : sampleStream A = sampleStream B) : A = B := by
  ext1 i hi
  have hA := tapeBytes_getElem?_data A ⟨i / 256, by omega⟩ ⟨i % 256, by omega⟩
  have hB := tapeBytes_getElem?_data B ⟨i / 256, by omega⟩ ⟨i % 256, by omega⟩
  rw [tapeBytes_eq_of_sampleStream_eq h, hB] at hA
  simpa [Nat.div_add_mod] using hA.symm

/-! Operations in sequence. -/

/-- The bodies of operations one after another. -/
def runAll : List Instr → State → Run
  | [], s => .completed s
  | i :: is, s => (bodyOf i s).andThen (runAll is)

theorem runAll_append (is js : List Instr) (s : State) : runAll (is ++ js) s = (runAll is s).andThen (runAll js) := by
  induction is generalizing s with
  | nil => rfl
  | cons i is ih =>
    simp only [List.cons_append, runAll, andThen_assoc]
    congr
    funext u
    exact ih u

theorem repeatRun_eq_runAll (i : Instr) (n : Nat) (s : State) :
    repeatRun (bodyOf i) n s = runAll (List.replicate n i) s := by
  induction n generalizing s with
  | zero => rfl
  | succ n ih =>
    simp only [repeatRun, List.replicate_succ, runAll]
    congr
    funext u
    exact ih u

/-- An operation that leaves the status fields as they are lets the next one run. -/
def keepsStatus (i : Instr) : Prop := i ≠ .reset ∧ ∀ s, Extends s (bodyOf i s).last

/-- Bodies that run to the end one after another are operations that complete one after another. -/
theorem execAll_of_runAll {is : List Instr} (hk : ∀ i ∈ is, keepsStatus i) {s t : State} (hr : s.ready)
    (h : runAll is s = .completed t) : execAll is s = .next t ∧ t.ready := by
  induction is generalizing s with
  | nil => cases h; exact ⟨rfl, hr⟩
  | cons i is ih =>
    obtain ⟨⟨hi, hext⟩, hrest⟩ := List.forall_mem_cons.mp hk
    obtain ⟨u, hu, hut⟩ := andThen_inv h
    have hsu : Extends s u := by simpa [hu] using hext s
    have hru : u.ready := ⟨hsu.refused.trans hr.1, hsu.phase ▸ hr.2⟩
    simpa only [execAll, exec_of_completed hi hr hu] using ih hrest hru hut

theorem keepsStatus_synth (t : Tone) : keepsStatus (.synth t) := ⟨by simp, synthesize_extends t⟩
theorem keepsStatus_stone : keepsStatus .stone := ⟨by simp, fun s => (runStone_appends s).extends_last⟩
theorem keepsStatus_calib : keepsStatus .calib := ⟨by simp, fun s => (runCalib_appends s).extends_last⟩
theorem keepsStatus_header (image : Image) : keepsStatus (.header image) := ⟨by simp, runHeader_extends image⟩
theorem keepsStatus_block (image : Image) : keepsStatus (.block image) := ⟨by simp, runBlock_extends image⟩
theorem keepsStatus_trailer : keepsStatus .trailer := ⟨by simp, fun s => (runTrailer_appends s).extends_last⟩

/-- The operations of a conversion before its blocks, in the order of R171. -/
def opsBeforeBlocks (image : Image) : List Instr :=
  [.synth .start, .synth .zero, .synth .one, .stone, .calib, .header image]

/-- The operations of a conversion from its blocks on. -/
def opsFromBlocks (image : Image) : List Instr := List.replicate 16 (.block image) ++ [.trailer]

theorem keepsStatus_beforeBlocks {image : Image} : ∀ i ∈ opsBeforeBlocks image, keepsStatus i := by
  simp [opsBeforeBlocks, keepsStatus_synth, keepsStatus_stone, keepsStatus_calib, keepsStatus_header]

theorem keepsStatus_fromBlocks {image : Image} : ∀ i ∈ opsFromBlocks image, keepsStatus i := by
  intro i hi
  obtain hi | hi := List.mem_append.mp hi
  · exact List.eq_of_mem_replicate hi ▸ keepsStatus_block image
  · exact List.mem_singleton.mp hi ▸ keepsStatus_trailer

/-- A conversion is the two sequences of operations, `BLK` put to 0 between them (R170, R171). -/
theorem sendFrame_eq_runAll (image : Image) (s : State) : sendFrame image (presetTables s)
    = (runAll (opsBeforeBlocks image) s).andThen fun t => runAll (opsFromBlocks image) (writeBlk 0 t) := by
  have hblocks : ∀ t, repeatRun (runBlock image) 16 t = runAll (List.replicate 16 (.block image)) t :=
    repeatRun_eq_runAll (.block image) 16
  have htrailer : runAll [.trailer] = runTrailer := by
    funext t
    show (runTrailer t).andThen .completed = runTrailer t
    cases runTrailer t <;> rfl
  have hheader : ∀ t, runAll [.header image] t = runHeader image t := fun t => by
    show (runHeader image t).andThen .completed = runHeader image t
    cases runHeader image t <;> rfl
  have hbefore : runAll (opsBeforeBlocks image) s
      = (runStone (presetTables s)).andThen fun s => (runCalib s).andThen fun s => runHeader image s := by
    simp only [← hheader]
    rfl
  simp only [hbefore, opsFromBlocks, runAll_append, htrailer, ← hblocks, sendFrame, andThen_assoc]

/-! The obligations on `ENCODE`. -/

/-- Settles O38: the conversion sends its writes to the end, and the registers hold what the last block left. -/
theorem encodeSendsTheWholeFrame : Obligations.EncodeSendsTheWholeFrame := by
  intro s rom h hr hp hf hl
  have hbody : bodyOf (.encode rom) s = _ :=
    (runEncode_conversion (by simp [hp]) hf h).trans (runConversion_completed hf hl)
  rw [exec_of_completed (by simp) (ready_of_idle hr hp) hbody, bufAppend_eq, frameRegs_eq]
  rfl

/-- Settles O58: the conversion sends its writes as far as they fit. -/
theorem encodePastTheLimit : Obligations.EncodePastTheLimit := by
  intro s rom h hr hp hf hs hl
  obtain ⟨g, hg, hrun⟩ := runConversion_full hf hs hl
  have hbody : bodyOf (.encode rom) s = _ := (runEncode_conversion (by simp [hp]) hf h).trans hrun
  refine ⟨_, exec_of_refused (by simp) (ready_of_idle hr hp) hbody, rfl, rfl, ?_, fun tone => ?_, ?_⟩
  · exact (hg.phase _).trans hp
  · rw [setRefused_table, bufAppend_table, hg.table, presetTables_table]
  · rw [setRefused_buf, bufAppend_buf, hg.buf, replicateChannels_eq]
    rfl

/-- Settles O41: the stream fits an empty buffer, and the second operation writes its container. -/
theorem conversionYieldsTheContainer : Obligations.ConversionYieldsTheContainer := by
  intro s rom h hr hp hf hbuf
  have hfit := sampleStream_length_le (imageOf rom h)
  have hmax : Config.lenMax = 4294967259 := rfl
  have hlen : s.len = 0 := congrArg List.length hbuf
  refine ⟨_, _, encodeSendsTheWholeFrame s rom h hr hp hf (by omega),
    finalizeSerializesTheBuffer _ ⟨hr, by simp⟩, ⟨rfl, rfl, hr⟩, ?_⟩
  rw [hbuf, List.nil_append]

/-- Settles O42: the samples give the bits, the bits the bytes of the tape, and those hold the image. -/
theorem bufferDeterminesTheImage : Obligations.BufferDeterminesTheImage := by
  intro s romA romB hr hp hf hl hA hB
  have hfitA := sampleStream_length_le (imageOf romA hA)
  have hfitB := sampleStream_length_le (imageOf romB hB)
  refine ⟨_, _, encodeSendsTheWholeFrame s romA hA hr hp hf (by omega),
    encodeSendsTheWholeFrame s romB hB hr hp hf (by omega), rfl, rfl, fun hbuf => ?_⟩
  have himage := image_eq_of_sampleStream_eq (List.append_cancel_left hbuf)
  exact congrArg Vector.toList himage

/-- Settles O53: the completed conversion is its two sequences of bodies, and each body is an operation that completes. -/
theorem encodeIsItsStepsInOrder : Obligations.EncodeIsItsStepsInOrder := by
  intro s rom h hr hp hf hl
  have hready := ready_of_idle hr hp
  have hrun := runConversion_completed hf hl
  rw [runConversion_eq, sendFrame_eq_runAll] at hrun
  obtain ⟨u, hsteps, hdone⟩ := andThen_inv hrun
  obtain ⟨t, hbefore, hfrom⟩ := andThen_inv hsteps
  obtain ⟨hexecBefore, hreadyT⟩ := execAll_of_runAll keepsStatus_beforeBlocks hready hbefore
  obtain ⟨hexecFrom, hreadyU⟩ := execAll_of_runAll keepsStatus_fromBlocks (s := writeBlk 0 t) hreadyT hfrom
  refine ⟨t, u, hexecBefore, hexecFrom, hreadyU.1, ?_⟩
  have hbody : bodyOf (.encode rom) s = _ :=
    (runEncode_conversion (by simp [hp]) hf h).trans ((runConversion_completed hf hl).trans hdone.symm)
  exact exec_of_completed (by simp) hready hbody

end Sys2Proof.Machine

/-! SUPPORT. Frames: what each operation leaves unchanged, refused part-way or not, and what the whole machine keeps (R26,
R28, R42, R171). -/

namespace Sys2Proof.Machine

/-! What a state an operation gives comes from. -/

/-- What holds before an operation and where its body stops, and does not speak of refusals, holds of the next state. -/
theorem exec_keeps {P : State → Prop} {i : Instr} {s t : State} (hi : i ≠ .reset) (ht : exec i s = .next t) (hs : P s)
    (hbody : P (bodyOf i s).last) (hmark : ∀ why u, P u → P (setRefused why u)) : P t := by
  obtain ⟨_, ⟨_, rfl⟩ | ⟨_, rfl⟩⟩ := exec_cases hi ht
  · exact hmark _ _ hs
  · obtain hlast | ⟨why, hlast⟩ := result_cases (bodyOf i s)
    · rwa [hlast]
    · exact hlast ▸ hmark why _ hbody

theorem result_phase (r : Run) : r.result.phase = r.last.phase := by cases r <;> rfl

/-- An offset below `LEN` reads the same in a longer `BUF`. -/
theorem bufRead_of_prefix {s t : State} (h : s.buf <+: t.buf) {a : Nat} (ha : a < s.len) : t.bufRead a = s.bufRead a := by
  obtain ⟨x, hx⟩ := h
  rw [State.bufRead, State.bufRead, ← hx]
  exact List.getElem?_append_left ha

/-! The bodies. -/

theorem sendFrame_extends (image : Image) (s : State) : Extends s (sendFrame image s).last :=
  extends_andThen (runStone_appends s).extends_last fun s =>
  extends_andThen (runCalib_appends s).extends_last fun s =>
  extends_andThen (runHeader_extends image s) fun s =>
  extends_andThen (repeatRun_last (P := Extends s) (fun u hu => hu.trans (runBlock_extends image u)) 16 _
    ⟨rfl, rfl, rfl, rfl, rfl, rfl, rfl, rfl, List.prefix_rfl, fun _ => rfl, List.prefix_rfl⟩) fun s =>
  (runTrailer_appends s).extends_last

theorem presetTables_extends (s : State) : Extends s (presetTables s) :=
  (synthesize_extends .start s).trans ((synthesize_extends .zero _).trans (synthesize_extends .one _))

/-- A conversion stops inside its steps, or after them in `DONE`. -/
theorem runConversion_last (image : Image) (s : State) : Extends s (runConversion image s).last
    ∨ ∃ u, Extends s u ∧ (runConversion image s).last = setDone u := by
  have hsteps := (presetTables_extends s).trans (sendFrame_extends image (presetTables s))
  rw [runConversion_eq]
  cases hrun : sendFrame image (presetTables s) with
  | completed u => exact .inr ⟨u, by simpa [hrun] using hsteps, rfl⟩
  | refused r u => exact .inl (by simpa [hrun] using hsteps)

/-- Where `ENCODE` stops: inside its steps or at a check, or, on an open buffer before any conversion, after them or in the
fault (R28, R170). -/
theorem runEncode_last (rom : List Byte) (s : State) : Extends s (runEncode rom s).last
    ∨ (s.phase ≠ .done ∧ s.final = false
      ∧ ((rom.length = 4096 ∧ ∃ u, Extends s u ∧ (runEncode rom s).last = setDone u)
        ∨ (rom.length ≠ 4096 ∧ (runEncode rom s).last = takeRomSizeFault rom.length s))) := by
  by_cases hp : s.phase = .done
  · exact .inl (by rw [runEncode_done rom hp]; exact .refl s)
  by_cases hf : s.final = true
  · exact .inl (by rw [runEncode_final rom hp hf]; exact .refl s)
  have hopen : s.final = false := by simpa using hf
  by_cases h : rom.length = 4096
  · rw [runEncode_conversion hp hopen h]
    exact (runConversion_last _ s).imp_right fun hdone => ⟨hp, hopen, .inl ⟨h, hdone⟩⟩
  · exact .inr ⟨hp, hopen, .inr ⟨h, by rw [runEncode_wrongSize hp hopen h]; rfl⟩⟩

theorem runPage_extends (b : Nat) (s : State) : Extends s (runPage b s).last := by
  obtain hb | hb := Nat.lt_or_ge b 16
  · rw [runPage_completed hb]
    exact ⟨rfl, rfl, rfl, rfl, rfl, rfl, rfl, rfl, List.prefix_rfl, fun _ => rfl, List.prefix_rfl⟩
  · rw [runPage_outOfDomain hb]
    exact .refl s

/-- Every body but those of `FINALIZE`, `ENCODE` and `HCSUM` leaves the status fields, `OUT` and the model's own fields. -/
theorem bodyOf_extends {i : Instr} (hfinalize : i ≠ .finalize) (hencode : ∀ rom, i ≠ .encode rom) (hhcsum : i ≠ .hcsum)
    (s : State) : Extends s (bodyOf i s).last := by
  cases i with
  | reset => exact .refl s
  | synth t => exact synthesize_extends t s
  | wbyte b => exact (sendByte_appends b s).extends_last
  | wdur b d => exact (sendDuration_appends b d s).extends_last
  | push seq => exact (pushSamples_appends seq s).extends_last
  | finalize => exact absurd rfl hfinalize
  | encode rom => exact absurd rfl (hencode rom)
  | stone => exact (runStone_appends s).extends_last
  | calib => exact (runCalib_appends s).extends_last
  | header image => exact runHeader_extends image s
  | block image => exact runBlock_extends image s
  | trailer => exact (runTrailer_appends s).extends_last
  | page b => exact runPage_extends b s
  | hcsum => exact absurd rfl hhcsum
  | bcsum page data =>
    exact ⟨rfl, rfl, rfl, rfl, rfl, rfl, rfl, rfl, List.prefix_rfl, fun _ => rfl, List.prefix_rfl⟩

/-- What every body keeps: the commands, a `BUF` that only grows, and not even that once finalized (R42, R217). -/
structure Keeps (s u : State) : Prop where
  driven : u.driven = s.driven
  buf : s.buf <+: u.buf
  closed : s.final = true → u.buf = s.buf ∧ u.final = true

theorem Keeps.refl (s : State) : Keeps s s := ⟨rfl, List.prefix_rfl, fun hf => ⟨rfl, hf⟩⟩

theorem Extends.keeps {s u : State} (h : Extends s u) : Keeps s u :=
  ⟨h.driven, h.buf, fun hf => ⟨h.buf_final hf, h.final.trans hf⟩⟩

theorem bodyOf_keeps (i : Instr) (s : State) : Keeps s (bodyOf i s).last := by
  cases i with
  | finalize => exact ⟨rfl, List.prefix_rfl, fun _ => ⟨rfl, rfl⟩⟩
  | encode rom =>
    obtain h | ⟨_, _, ⟨_, u, hu, hlast⟩ | ⟨_, hlast⟩⟩ := runEncode_last rom s
    · exact h.keeps
    · obtain ⟨hdriven, hbuf, hclosed⟩ := hu.keeps
      exact hlast ▸ ⟨hdriven, hbuf, hclosed⟩
    · exact hlast ▸ ⟨rfl, List.prefix_rfl, fun hf => ⟨rfl, hf⟩⟩
  | hcsum =>
    obtain ⟨v, n, hrun⟩ := runHcsum_cases s
    rw [bodyOf, hrun]
    exact ⟨rfl, List.prefix_rfl, fun hf => ⟨rfl, hf⟩⟩
  | _ => exact (bodyOf_extends (by simp) (by simp) (by simp) s).keeps

theorem exec_keeps_commands_and_buffer {i : Instr} {s t : State} (hi : i ≠ .reset) (ht : exec i s = .next t) : Keeps s t :=
  exec_keeps hi ht (.refl s) (bodyOf_keeps i s) fun _ _ ⟨hdriven, hbuf, hclosed⟩ => ⟨hdriven, hbuf, hclosed⟩

/-- Every body but `ENCODE`'s leaves `PHASE`. -/
theorem bodyOf_phase {i : Instr} (hencode : ∀ rom, i ≠ .encode rom) (s : State) :
    (bodyOf i s).last.phase = s.phase := by
  cases i with
  | finalize => rfl
  | encode rom => exact absurd rfl (hencode rom)
  | hcsum =>
    obtain ⟨v, n, hrun⟩ := runHcsum_cases s
    rw [bodyOf, hrun]
    rfl
  | _ => exact (bodyOf_extends (by simp) (by simp) (by simp) s).phase

/-- With nothing to run next the step wires are at rest. -/
theorem driven_of_nextCommand_none {s : State} (h : nextCommand s = none) : s.driven = none := by
  unfold nextCommand at h
  split at h
  · cases h
  · assumption

/-! Frames of the operations that send (R26). -/

/-- `s` with what a sending operation may write, and what a refusal marks, from `z`. -/
def sendWrites (s z : State) : State := { s with buf := z.buf, refused := z.refused, report := z.report }

/-- The same for `HEADER`. -/
def headerWrites (s z : State) : State :=
  { s with hdr := z.hdr, csum := z.csum, buf := z.buf, diag := z.diag, refused := z.refused, report := z.report }

/-- The same for `BLOCK`. -/
def blockWrites (s z : State) : State :=
  { s with page := z.page, csum := z.csum, blk := z.blk, buf := z.buf, diag := z.diag, refused := z.refused,
           report := z.report }

/-- The same for `ENCODE`, which writes the tables and `PHASE` too. -/
def encodeWrites (s z : State) : State :=
  { s with phase := z.phase, tableStart := z.tableStart, tableZero := z.tableZero, tableOne := z.tableOne,
           hdr := z.hdr, blk := z.blk, page := z.page, csum := z.csum, buf := z.buf, diag := z.diag,
           refused := z.refused, report := z.report }

/-- `u` is `s` but for the fields that `writes` takes from some state, whose `BUF` and `DIAG` continue those of `s`. -/
def FrameOf (writes : State → State → State) (s u : State) : Prop :=
  ∃ z, u = writes s z ∧ s.buf <+: z.buf ∧ s.diag <+: z.diag

/-- A frame that allows what a refusal marks and holds where the body stops holds of the next state. -/
theorem exec_frameOf {writes : State → State → State} (hself : ∀ s, writes s s = s)
    (hmark : ∀ s z why, setRefused why (writes s z) = writes s (setRefused why z)) {i : Instr} {s t : State}
    (hi : i ≠ .reset) (ht : exec i s = .next t) (hbody : FrameOf writes s (bodyOf i s).last) : FrameOf writes s t := by
  refine exec_keeps hi ht ⟨s, (hself s).symm, List.prefix_rfl, List.prefix_rfl⟩ hbody ?_
  rintro why _ ⟨z, rfl, hz⟩
  exact ⟨setRefused why z, hmark s z why, hz⟩

theorem appends_frame {s : State} {r : Run} (h : Appends s r) : FrameOf sendWrites s r.last := by
  obtain ⟨x, hx, _⟩ := h
  exact ⟨bufAppend s x, hx, List.prefix_append _ _, List.prefix_rfl⟩

theorem runHeader_frame (image : Image) (s : State) : FrameOf headerWrites s (runHeader image s).last := by
  obtain ⟨x, hx, _⟩ := sendBytes_appends (headerBytes (headerOf image)) (headerRegs image s)
  exact ⟨bufAppend (headerRegs image s) x, hx, List.prefix_append _ _, List.prefix_append _ _⟩

theorem runBlock_frame (image : Image) (s : State) : FrameOf blockWrites s (runBlock image s).last := by
  by_cases hb : s.blk.toNat < 16
  · rw [runBlock_eq (b := ⟨_, hb⟩) rfl, sendBlock_eq]
    obtain ⟨x, hx, _⟩ := sendBytes_appends (blockRecord image ⟨_, hb⟩) (recordRegs image ⟨_, hb⟩ s)
    have hsent : FrameOf blockWrites s (sendBytes (blockRecord image ⟨_, hb⟩) (recordRegs image ⟨_, hb⟩ s)).last :=
      ⟨bufAppend (recordRegs image ⟨_, hb⟩ s) x, hx, List.prefix_append _ _, List.prefix_append _ _⟩
    refine andThen_last hsent ?_
    rintro _ ⟨z, rfl, hz⟩
    exact ⟨writeBlk _ z, rfl, hz⟩
  · rw [runBlock_outOfDomain image (by omega)]
    exact ⟨s, rfl, List.prefix_rfl, List.prefix_rfl⟩

theorem Extends.eq_encodeWrites {s u : State} (h : Extends s u) : u = encodeWrites s u :=
  State.ext rfl h.final rfl rfl rfl rfl rfl rfl rfl rfl rfl h.out rfl rfl h.pending h.driven h.freeIx

theorem runEncode_frame (rom : List Byte) (s : State) : FrameOf encodeWrites s (runEncode rom s).last := by
  obtain h | ⟨_, _, ⟨_, u, hu, hlast⟩ | ⟨_, hlast⟩⟩ := runEncode_last rom s
  · exact ⟨_, h.eq_encodeWrites, h.buf, h.diag⟩
  · exact ⟨setDone u, hlast.trans (congrArg setDone hu.eq_encodeWrites), hu.buf, hu.diag⟩
  · exact ⟨takeRomSizeFault rom.length s, hlast, List.prefix_rfl, List.prefix_rfl⟩

/-! The obligations on frames. -/

/-- Settles O43: each of the six only appends. -/
theorem sendingOperationsFrame : Obligations.SendingOperationsFrame := by
  intro i s t hop ht
  have hi : i ≠ .reset := by rintro rfl; simp at hop
  have happends : Appends s (bodyOf i s) := by
    obtain ⟨b, rfl⟩ | ⟨b, d, rfl⟩ | ⟨seq, rfl⟩ | rfl | rfl | rfl := hop
    · exact sendByte_appends b s
    · exact sendDuration_appends b d s
    · exact pushSamples_appends seq s
    · exact runStone_appends s
    · exact runCalib_appends s
    · exact runTrailer_appends s
  obtain ⟨z, rfl, hbuf, _⟩ := exec_frameOf (fun _ => rfl) (fun _ _ _ => rfl) hi ht (appends_frame happends)
  exact ⟨rfl, fun a ha => bufRead_of_prefix hbuf ha, hbuf.length_le⟩

/-- Settles O44: the registers each writes stand in its body; the rest of `ENCODE`'s frame is that of its steps. -/
theorem frameBuildersFrame : Obligations.FrameBuildersFrame := by
  intro s t image rom
  refine ⟨fun ht => ?_, fun ht => ?_, fun ht => ?_⟩
  · obtain ⟨z, rfl, hbuf, hdiag⟩ :=
      exec_frameOf (fun _ => rfl) (fun _ _ _ => rfl) (by simp) ht (runHeader_frame image s)
    exact ⟨rfl, fun a ha => bufRead_of_prefix hbuf ha, hdiag⟩
  · obtain ⟨z, rfl, hbuf, hdiag⟩ :=
      exec_frameOf (fun _ => rfl) (fun _ _ _ => rfl) (by simp) ht (runBlock_frame image s)
    exact ⟨rfl, fun a ha => bufRead_of_prefix hbuf ha, hdiag⟩
  · obtain ⟨z, rfl, hbuf, hdiag⟩ :=
      exec_frameOf (fun _ => rfl) (fun _ _ _ => rfl) (by simp) ht (runEncode_frame rom s)
    exact ⟨rfl, fun a ha => bufRead_of_prefix hbuf ha, hdiag⟩

/-- Settles O45: each writes its own registers, or is refused. -/
theorem registerOperationsFrame : Obligations.RegisterOperationsFrame := by
  intro s t
  refine ⟨fun tone ht => ?_, fun ht => ?_, fun b ht => ?_, fun ht => ?_, fun page data ht => ?_⟩
  · obtain ⟨_, ⟨_, rfl⟩ | ⟨_, rfl⟩⟩ := exec_cases (by simp) ht
    · exact ⟨rfl, fun u _ => setRefused_table s _ u, fun _ => rfl⟩
    · exact ⟨by cases tone <;> rfl, fun u hu => synthesize_table_ne s tone hu, fun a => by cases tone <;> rfl⟩
  · obtain ⟨_, ⟨_, rfl⟩ | ⟨_, rfl⟩⟩ := exec_cases (by simp) ht <;> exact ⟨rfl, fun _ => rfl⟩
  · obtain ⟨_, ⟨_, rfl⟩ | ⟨_, rfl⟩⟩ := exec_cases (by simp) ht
    · exact ⟨rfl, fun _ => rfl⟩
    · obtain hb | hb := Nat.lt_or_ge b 16
      · rw [bodyOf, runPage_completed hb]; exact ⟨rfl, fun _ => rfl⟩
      · rw [bodyOf, runPage_outOfDomain hb]; exact ⟨rfl, fun _ => rfl⟩
  · obtain ⟨_, ⟨_, rfl⟩ | ⟨_, rfl⟩⟩ := exec_cases (by simp) ht
    · exact ⟨rfl, fun _ => rfl⟩
    · obtain ⟨v, n, hrun⟩ := runHcsum_cases s
      rw [bodyOf, hrun]
      exact ⟨rfl, fun _ => rfl⟩
  · obtain ⟨_, ⟨_, rfl⟩ | ⟨_, rfl⟩⟩ := exec_cases (by simp) ht <;> exact ⟨rfl, fun _ => rfl⟩

/-- Settles O48. -/
theorem bufferGrowsUntilFinal : Obligations.BufferGrowsUntilFinal := fun _ _ _ hi ht =>
  ⟨(exec_keeps_commands_and_buffer hi ht).buf, (exec_keeps_commands_and_buffer hi ht).closed⟩

/-- Settles O49: only the body of `ENCODE` writes `PHASE`, past its checks. -/
theorem phaseTransitions : Obligations.PhaseTransitions := by
  intro i s t ht hphase
  by_cases hi : i = .reset
  · subst hi
    cases ht
    exact .inl ⟨rfl, rfl⟩
  obtain ⟨_, ⟨_, rfl⟩ | ⟨hfault, rfl⟩⟩ := exec_cases hi ht
  · exact absurd (setRefused_phase s _) hphase
  rw [result_phase] at hphase ⊢
  by_cases hencode : ∃ rom, i = .encode rom
  · obtain ⟨rom, rfl⟩ := hencode
    obtain h | ⟨hdone, hopen, hend⟩ := runEncode_last rom s
    · exact absurd h.phase hphase
    · have hidle : s.phase = .idle := by
        cases hp : s.phase with
        | idle => rfl
        | done => exact absurd hp hdone
        | fault => exact absurd hp hfault
      refine .inr ⟨rom, rfl, hidle, hopen, hend.imp ?_ ?_⟩
      · rintro ⟨hlen, u, _, hlast⟩
        exact ⟨hlen, congrArg State.phase hlast⟩
      · rintro ⟨hlen, hlast⟩
        exact ⟨hlen, congrArg State.phase hlast⟩
  · exact absurd (bodyOf_phase (by simpa using hencode) s) hphase

/-- Settles O54: taking a command leaves the step wires at rest and no operation drives them; from rest, only the host's
commands are left to take. -/
theorem stepsRunOnlyInsideEncode : Obligations.StepsRunOnlyInsideEncode := by
  refine ⟨fun s t ht => ?_, fun s hd => ?_⟩
  · obtain ⟨hn, rfl⟩ | ⟨i, hexec⟩ | ⟨r, hrefuse⟩ := step_cases ht
    · exact driven_of_nextCommand_none hn
    · by_cases hi : i = .reset
      · subst hi
        cases hexec
        rfl
      · exact (exec_keeps_commands_and_buffer hi hexec).driven.trans (takeCommand_driven s)
    · obtain ⟨_, rfl⟩ := refuseCommand_cases hrefuse
      exact takeCommand_driven s
  · cases hp : s.pending with
    | nil => exact .inl ⟨rfl, step_idle hd hp⟩
    | cons c rest =>
      refine .inr ⟨c, rest, rfl, (accept_host_cases c).imp ?_ ?_⟩
      · rintro ⟨i, hk, hdec, hacc⟩
        exact ⟨i, hk, hdec, step_host_accepted hd hp hacc⟩
      · rintro ⟨r, hr, hacc⟩
        exact ⟨r, hr, step_host_refused hd hp hacc⟩

end Sys2Proof.Machine

/-! SUPPORT. The machine's invariant: every update an operation makes keeps it, so every body does, and every step. -/

namespace Sys2Proof.Machine

/-! The invariant and the single updates. -/

/-- Marking a refusal keeps the invariant, and settles what has been reported. -/
theorem setRefused_inv {s : State} (h : s.Inv) (r : Reason) : (setRefused r s).Inv :=
  { h with report_none := by simp }

theorem takeCommand_inv {s : State} (h : s.Inv) : (takeCommand s).Inv := by
  unfold takeCommand
  split
  · exact { h with }
  · exact { h with }

/-- Sending keeps the invariant: a finalized buffer takes nothing, and `LEN_MAX` holds. -/
theorem appends_inv {s : State} {r : Run} (h : s.Inv) (hr : Appends s r) : r.last.Inv := by
  obtain ⟨x, hx, hfinal, hlen⟩ := hr
  rw [hx]
  by_cases hx0 : x = []
  · rwa [hx0, bufAppend_nil]
  · have hopen : s.final = false := by
      cases hf : s.final with
      | false => rfl
      | true => exact absurd (hfinal hf) hx0
    have hout : s.out = none := by simpa [hopen] using h.out_eq
    exact { h with
      len_le := by rw [bufAppend_len]; exact hlen hx0
      out_eq := by simp [hopen, hout] }

theorem tvalid_eq_isSome (s : State) (t : Tone) : s.tvalid t = (s.table t).isSome := by
  cases t <;> simp [State.tvalid, State.table]

/-- `SYNTH` makes no table invalid (R130). -/
theorem synthesize_tvalid {s : State} {u : Tone} (h : s.tvalid u = true) (t : Tone) :
    (synthesize t s).tvalid u = true := by
  by_cases hu : u = t
  · exact hu ▸ (synthesize_table s u).2
  · rwa [tvalid_eq_isSome, synthesize_table_ne s t hu, ← tvalid_eq_isSome]

theorem synthesize_inv {s : State} (h : s.Inv) (t : Tone) : (synthesize t s).Inv := by
  have hdone : s.phase = .done → (∀ u, (synthesize t s).tvalid u = true) ∧ s.hdr.isSome = true ∧ s.blk = 16 :=
    fun hp => (h.done_complete hp).imp_left fun hvalid u => synthesize_tvalid (hvalid u) t
  cases t with
  | start => exact { h with
      tableStart_preset := fun _ hv => (Option.some.inj hv).symm
      done_complete := hdone }
  | zero => exact { h with
      tableZero_preset := fun _ hv => (Option.some.inj hv).symm
      done_complete := hdone }
  | one => exact { h with
      tableOne_preset := fun _ hv => (Option.some.inj hv).symm
      done_complete := hdone }

theorem writePage_inv {s : State} (h : s.Inv) (b : Fin 16) : (writePage (pageNumber b) s).Inv :=
  { h with page_valid := fun _ hp => ⟨b, (Option.some.inj hp).symm⟩ }

theorem headerOf_valid (image : Image) : headerValid (headerOf image) :=
  ⟨rfl, rfl, rfl, rfl, rfl, byteSum_headerBytes_headerOf image⟩

theorem headerRegs_inv {s : State} (h : s.Inv) (image : Image) : (headerRegs image s).Inv :=
  { h with
    hdr_valid := fun _ hh => Option.some.inj hh ▸ headerOf_valid image
    done_complete := fun hp =>
      let ⟨hvalid, _, hblk⟩ := h.done_complete hp
      ⟨hvalid, rfl, hblk⟩ }

theorem recordRegs_inv {s : State} (h : s.Inv) (image : Image) (b : Fin 16) : (recordRegs image b s).Inv :=
  { writePage_inv h b with }

/-- Before a conversion is done `BLK` may take any value of 0 to 16. -/
theorem writeBlk_inv {s : State} (h : s.Inv) (hp : s.phase ≠ .done) {n : Nat} (hn : n ≤ 16) : (writeBlk n s).Inv :=
  { h with
    blk_le := by rw [writeBlk_blk, BitVec.toNat_ofNat]; omega
    done_complete := fun hd => absurd hd hp }

theorem serialize_inv {s : State} (h : s.Inv) (hp : s.phase ≠ .fault) : (serialize s).Inv :=
  { h with
    out_eq := rfl
    fault_open := fun hf => absurd hf hp }

theorem takeRomSizeFault_inv {s : State} (h : s.Inv) (hf : s.final = false) (n : Nat) : (takeRomSizeFault n s).Inv :=
  { h with
    done_complete := fun hd => nomatch hd
    fault_open := fun _ => hf
    report_none := by simp }

theorem setDone_inv {s : State} (h : s.Inv) (hp : s.phase ≠ .fault) (ht : ∀ t, s.tvalid t = true)
    (hh : s.hdr.isSome = true) (hb : s.blk = 16) : (setDone s).Inv :=
  { h with
    done_complete := fun _ => ⟨ht, hh, hb⟩
    fault_open := fun hf => nomatch hf
    report_none := by simpa [hp] using h.report_none }

theorem reset_inv : State.reset.Inv :=
  { len_le := Nat.zero_le _
    tableStart_preset := fun _ h => nomatch h
    tableZero_preset := fun _ h => nomatch h
    tableOne_preset := fun _ h => nomatch h
    hdr_valid := fun _ h => nomatch h
    blk_le := Nat.zero_le _
    page_valid := fun _ h => nomatch h
    out_eq := rfl
    done_complete := fun h => nomatch h
    fault_open := fun _ => rfl
    report_none := ⟨fun _ => ⟨rfl, by decide⟩, fun _ => rfl⟩ }

theorem resetState_inv (s : State) : (resetState s).Inv := { reset_inv with }

/-! The bodies. -/

theorem runHeader_inv {s : State} (h : s.Inv) (image : Image) : (runHeader image s).last.Inv :=
  appends_inv (headerRegs_inv h image) (sendBytes_appends _ _)

/-- The invariant with no conversion done yet: what the steps of one keep. -/
def InvBeforeDone (s : State) : Prop := s.Inv ∧ s.phase ≠ .done

theorem invBeforeDone_of_extends {s u : State} (hs : InvBeforeDone s) (hu : u.Inv) (hext : Extends s u) :
    InvBeforeDone u := ⟨hu, hext.phase ▸ hs.2⟩

theorem appends_invBeforeDone {s : State} {r : Run} (hs : InvBeforeDone s) (hr : Appends s r) : InvBeforeDone r.last :=
  invBeforeDone_of_extends hs (appends_inv hs.1 hr) hr.extends_last

/-- `BLOCK` runs only before a conversion is done, since `BLK` is 16 after it. -/
theorem runBlock_inv {s : State} (h : s.Inv) (image : Image) : (runBlock image s).last.Inv := by
  by_cases hb : s.blk.toNat < 16
  · have hp : s.phase ≠ .done := fun hd => by
      obtain ⟨_, _, hblk⟩ := h.done_complete hd
      simp [hblk] at hb
    rw [runBlock_eq (b := ⟨_, hb⟩) rfl, sendBlock_eq]
    have hregs : InvBeforeDone (recordRegs image ⟨_, hb⟩ s) := ⟨recordRegs_inv h image _, hp⟩
    refine (andThen_last (appends_invBeforeDone hregs (sendBytes_appends _ _)) fun u hu => ?_).1
    exact ⟨writeBlk_inv hu.1 hu.2 (Nat.succ_le_of_lt hb), hu.2⟩
  · rw [runBlock_outOfDomain image (by omega)]
    exact h

theorem presetTables_inv {s : State} (h : s.Inv) : (presetTables s).Inv :=
  synthesize_inv (synthesize_inv (synthesize_inv h .start) .zero) .one

/-- The steps of a conversion keep the invariant, where no conversion is done. -/
theorem sendFrame_inv {s : State} (h : InvBeforeDone s) (image : Image) : (sendFrame image s).last.Inv := by
  refine (andThen_last (appends_invBeforeDone h (runStone_appends s)) fun s hs => ?_).1
  refine andThen_last (appends_invBeforeDone hs (runCalib_appends s)) fun s hs => ?_
  refine andThen_last (invBeforeDone_of_extends hs (runHeader_inv hs.1 image) (runHeader_extends image s)) fun s hs => ?_
  refine andThen_last ?_ fun s hs => appends_invBeforeDone hs (runTrailer_appends s)
  exact repeatRun_last (fun u hu => invBeforeDone_of_extends hu (runBlock_inv hu.1 image) (runBlock_extends image u)) 16 _
    ⟨writeBlk_inv hs.1 hs.2 (Nat.zero_le _), hs.2⟩

/-- A conversion keeps the invariant: one that is done has every table, the header, and all sixteen blocks. -/
theorem runConversion_inv {s : State} (h : s.Inv) (hd : s.phase ≠ .done) (hf : s.phase ≠ .fault)
    (hopen : s.final = false) (image : Image) : (runConversion image s).last.Inv := by
  have hsteps := sendFrame_inv ⟨presetTables_inv h, hd⟩ image
  by_cases hl : s.len + (sampleStream image).length ≤ Config.lenMax
  · have hrun := (sendFrame_sends image).fits _ (presetTables_sending hopen) (by rwa [frameWrites_flatten])
    rw [frameRegs_eq] at hrun
    rw [runConversion_eq, hrun]
    rw [hrun] at hsteps
    exact setDone_inv hsteps hf (fun t => by cases t <;> rfl) rfl rfl
  · obtain ⟨g, _, hrun⟩ :=
      (sendFrame_sends image).full _ (presetTables_sending hopen) h.len_le (by rw [frameWrites_flatten]; exact not_le.mp hl)
    rw [runConversion_eq, hrun]
    rwa [hrun] at hsteps

theorem runEncode_inv {s : State} (h : s.Inv) (hf : s.phase ≠ .fault) (rom : List Byte) : (runEncode rom s).last.Inv := by
  by_cases hd : s.phase = .done
  · rwa [runEncode_done rom hd]
  by_cases hfinal : s.final = true
  · rwa [runEncode_final rom hd hfinal]
  have hopen : s.final = false := by simpa using hfinal
  by_cases hlen : rom.length = 4096
  · rw [runEncode_conversion hd hopen hlen]
    exact runConversion_inv h hd hf hopen _
  · rw [runEncode_wrongSize hd hopen hlen]
    exact takeRomSizeFault_inv h hopen _

/-- Every body keeps the invariant, where there is no fault. -/
theorem bodyOf_inv {s : State} (h : s.Inv) (hf : s.phase ≠ .fault) (i : Instr) : (bodyOf i s).last.Inv := by
  cases i with
  | reset => exact h
  | synth t => exact synthesize_inv h t
  | wbyte b => exact appends_inv h (sendByte_appends b s)
  | wdur b d => exact appends_inv h (sendDuration_appends b d s)
  | push seq => exact appends_inv h (pushSamples_appends seq s)
  | finalize => exact serialize_inv h hf
  | encode rom => exact runEncode_inv h hf rom
  | stone => exact appends_inv h (runStone_appends s)
  | calib => exact appends_inv h (runCalib_appends s)
  | header image => exact runHeader_inv h image
  | block image => exact runBlock_inv h image
  | trailer => exact appends_inv h (runTrailer_appends s)
  | page b =>
    obtain hb | hb := Nat.lt_or_ge b 16
    · rw [bodyOf, runPage_completed hb]
      exact writePage_inv h _
    · rwa [bodyOf, runPage_outOfDomain hb]
  | hcsum =>
    obtain ⟨v, n, hrun⟩ := runHcsum_cases s
    rw [bodyOf, hrun]
    exact { h with }
  | bcsum page data => exact { h with }

theorem result_inv_of_last {r : Run} (h : r.last.Inv) : r.result.Inv := by
  obtain hr | ⟨why, hr⟩ := result_cases r
  · rwa [hr]
  · exact hr ▸ setRefused_inv h why

theorem exec_inv {i : Instr} {s t : State} (h : s.Inv) (ht : exec i s = .next t) : t.Inv := by
  by_cases hi : i = .reset
  · subst hi
    cases ht
    exact resetState_inv s
  obtain ⟨_, ⟨_, rfl⟩ | ⟨hf, rfl⟩⟩ := exec_cases hi ht
  · exact setRefused_inv h _
  · exact result_inv_of_last (bodyOf_inv h hf i)

/-! The obligations on the invariant. -/

/-- Settles O46. -/
theorem invariantAtReset : Obligations.InvariantAtReset := reset_inv

/-- Settles O47: a step idles, runs an operation on the state with the command taken, or marks a refusal there. -/
theorem stepKeepsInvariant : Obligations.StepKeepsInvariant := by
  intro s t h ht
  obtain ⟨_, rfl⟩ | ⟨i, hexec⟩ | ⟨r, hrefuse⟩ := step_cases ht
  · exact h
  · exact exec_inv (takeCommand_inv h) hexec
  · obtain ⟨_, rfl⟩ := refuseCommand_cases hrefuse
    exact setRefused_inv (takeCommand_inv h) r

end Sys2Proof.Machine

/-! SUPPORT. No operation reads `DIAG`: each runs alike on two states that differ in it alone (R183). -/

namespace Sys2Proof.Machine

/-- The same state with another `DIAG`. -/
def withDiag (d : List DiagRecord) (s : State) : State := { s with diag := d }

@[simp] theorem withDiag_final (d : List DiagRecord) (s : State) : (withDiag d s).final = s.final := rfl
@[simp] theorem withDiag_len (d : List DiagRecord) (s : State) : (withDiag d s).len = s.len := rfl
@[simp] theorem withDiag_hdr (d : List DiagRecord) (s : State) : (withDiag d s).hdr = s.hdr := rfl
@[simp] theorem withDiag_table (d : List DiagRecord) (s : State) (t : Tone) : (withDiag d s).table t = s.table t := by
  cases t <;> rfl

/-- The same run stopped with another `DIAG`. -/
def Run.withDiag (d : List DiagRecord) : Run → Run
  | .completed s => .completed (Machine.withDiag d s)
  | .refused r s => .refused r (Machine.withDiag d s)

theorem result_withDiag (d : List DiagRecord) (r : Run) : (r.withDiag d).result = withDiag d r.result := by
  cases r <;> rfl

/-- `k` runs alike whatever `DIAG` it starts from, and stops in states that differ in `DIAG` alone. -/
def IgnoresDiag (k : State → Run) : Prop := ∀ s d, ∃ d', k (withDiag d s) = (k s).withDiag d'

theorem IgnoresDiag.andThen {k l : State → Run} (hk : IgnoresDiag k) (hl : IgnoresDiag l) :
    IgnoresDiag fun s => (k s).andThen l := by
  intro s d
  obtain ⟨d', hd'⟩ := hk s d
  simp only [hd']
  cases k s with
  | refused r u => exact ⟨d', rfl⟩
  | completed u => exact hl u d'

theorem completed_ignoresDiag : IgnoresDiag .completed := fun _ d => ⟨d, rfl⟩

/-- The same of an update that goes before a run. -/
theorem IgnoresDiag.after_regs {k : State → Run} {f : State → State} (hk : IgnoresDiag k)
    (hf : ∀ s d, ∃ d', f (withDiag d s) = withDiag d' (f s)) : IgnoresDiag fun s => k (f s) := by
  intro s d
  obtain ⟨d', hd'⟩ := hf s d
  simp only [hd']
  exact hk (f s) d'

theorem repeatRun_ignoresDiag {op : State → Run} (h : IgnoresDiag op) (n : Nat) : IgnoresDiag (repeatRun op n) := by
  induction n with
  | zero => exact completed_ignoresDiag
  | succ n ih => exact h.andThen ih

/-! Sending. -/

theorem pushSamples_ignoresDiag (seq : List Byte) : IgnoresDiag (pushSamples seq) := by
  intro s d
  refine ⟨d, ?_⟩
  simp only [pushSamples, withDiag_final, withDiag_len, apply_ite (Run.withDiag d)]
  rfl

theorem pushBits_ignoresDiag (zero one : List Byte) (bits : List Bool) : IgnoresDiag (pushBits zero one bits) := by
  induction bits with
  | nil => exact completed_ignoresDiag
  | cons b bits ih => exact (pushSamples_ignoresDiag _).andThen ih

theorem sendByte_ignoresDiag (b : Byte) : IgnoresDiag (sendByte b) := by
  intro s d
  simp only [sendByte, withDiag_final, withDiag_table]
  split
  · exact ⟨d, rfl⟩
  · cases s.table .zero with
    | none => exact ⟨d, rfl⟩
    | some zero => cases s.table .one with
      | none => exact ⟨d, rfl⟩
      | some one => exact pushBits_ignoresDiag zero one _ s d

theorem sendBytes_ignoresDiag (bytes : List Byte) : IgnoresDiag (sendBytes bytes) := by
  induction bytes with
  | nil => exact completed_ignoresDiag
  | cons b bytes ih => exact (sendByte_ignoresDiag b).andThen ih

theorem sendDuration_ignoresDiag (b : Byte) (dur : Ratio) : IgnoresDiag (sendDuration b dur) := by
  intro s d
  unfold sendDuration
  split
  · exact repeatRun_ignoresDiag (sendByte_ignoresDiag b) _ s d
  · exact ⟨d, rfl⟩

/-! The steps of `ENCODE`. -/

theorem runStone_ignoresDiag : IgnoresDiag runStone := by
  intro s d
  simp only [runStone, withDiag_table]
  split
  · exact repeatRun_ignoresDiag (pushSamples_ignoresDiag _) _ s d
  · exact ⟨d, rfl⟩

theorem runCalib_ignoresDiag : IgnoresDiag runCalib :=
  (sendDuration_ignoresDiag _ _).andThen (sendByte_ignoresDiag _)

theorem runTrailer_ignoresDiag : IgnoresDiag runTrailer := sendDuration_ignoresDiag _ _

theorem runHeader_ignoresDiag (image : Image) : IgnoresDiag (runHeader image) :=
  (sendBytes_ignoresDiag (headerBytes (headerOf image))).after_regs (f := headerRegs image) fun _ d => ⟨d ++ _, rfl⟩

theorem sendBlock_ignoresDiag (image : Image) (b : Fin 16) : IgnoresDiag (sendBlock image b) :=
  ((sendBytes_ignoresDiag (blockRecord image b)).after_regs (f := recordRegs image b) fun _ d => ⟨d ++ _, rfl⟩).andThen
    (completed_ignoresDiag.after_regs (f := writeBlk (b.val + 1)) fun _ d => ⟨d, rfl⟩)

theorem runBlock_ignoresDiag (image : Image) : IgnoresDiag (runBlock image) := by
  intro s d
  by_cases hb : s.blk.toNat < 16
  · rw [runBlock_eq (s := s) (b := ⟨_, hb⟩) rfl, runBlock_eq (s := withDiag d s) (b := ⟨_, hb⟩) rfl]
    exact sendBlock_ignoresDiag image _ s d
  · have hdomain : 16 ≤ s.blk.toNat := not_lt.mp hb
    exact ⟨d, by rw [runBlock_outOfDomain image hdomain, runBlock_outOfDomain (s := withDiag d s) image hdomain]; rfl⟩

theorem sendFrame_ignoresDiag (image : Image) : IgnoresDiag (sendFrame image) := by
  have hblocks : IgnoresDiag fun s => repeatRun (runBlock image) 16 (writeBlk 0 s) :=
    (repeatRun_ignoresDiag (runBlock_ignoresDiag image) 16).after_regs fun _ d => ⟨d, rfl⟩
  exact runStone_ignoresDiag.andThen (runCalib_ignoresDiag.andThen ((runHeader_ignoresDiag image).andThen
    (hblocks.andThen runTrailer_ignoresDiag)))

theorem runConversion_ignoresDiag (image : Image) : IgnoresDiag (runConversion image) := by
  rw [funext (runConversion_eq image)]
  exact ((sendFrame_ignoresDiag image).after_regs fun _ d => ⟨d, rfl⟩).andThen
    (completed_ignoresDiag.after_regs (f := setDone) fun _ d => ⟨d, rfl⟩)

theorem runEncode_ignoresDiag (rom : List Byte) : IgnoresDiag (runEncode rom) := by
  intro s d
  by_cases hp : s.phase = .done
  · exact ⟨d, by rw [runEncode_done rom hp, runEncode_done rom (s := withDiag d s) hp]; rfl⟩
  by_cases hf : s.final = true
  · exact ⟨d, by rw [runEncode_final rom hp hf, runEncode_final rom (s := withDiag d s) hp hf]; rfl⟩
  have hopen : s.final = false := by simpa using hf
  by_cases h : rom.length = 4096
  · rw [runEncode_conversion hp hopen h, runEncode_conversion (s := withDiag d s) hp hopen h]
    exact runConversion_ignoresDiag _ s d
  · exact ⟨d, by rw [runEncode_wrongSize hp hopen h, runEncode_wrongSize (s := withDiag d s) hp hopen h]; rfl⟩

/-! Every body. -/

theorem bodyOf_ignoresDiag (i : Instr) : IgnoresDiag (bodyOf i) := by
  cases i with
  | reset => exact completed_ignoresDiag
  | synth t => exact fun _ d => ⟨d, by cases t <;> rfl⟩
  | wbyte b => exact sendByte_ignoresDiag b
  | wdur b dur => exact sendDuration_ignoresDiag b dur
  | push seq => exact pushSamples_ignoresDiag seq
  | finalize => exact fun _ d => ⟨d, rfl⟩
  | encode rom => exact runEncode_ignoresDiag rom
  | stone => exact runStone_ignoresDiag
  | calib => exact runCalib_ignoresDiag
  | header image => exact runHeader_ignoresDiag image
  | block image => exact runBlock_ignoresDiag image
  | trailer => exact runTrailer_ignoresDiag
  | page b =>
    intro s d
    obtain hb | hb := Nat.lt_or_ge b 16
    · exact ⟨d, by rw [bodyOf, runPage_completed hb, runPage_completed hb]; rfl⟩
    · exact ⟨d, by rw [bodyOf, runPage_outOfDomain hb, runPage_outOfDomain hb]; rfl⟩
  | hcsum =>
    intro s d
    refine ⟨d, ?_⟩
    simp only [bodyOf, runHcsum, withDiag_hdr]
    cases s.hdr <;> rfl
  | bcsum page data => exact fun _ d => ⟨d, rfl⟩

/-- Settles O52: `RESET` clears `DIAG`; every other operation checks the same fields and runs a body that ignores it. -/
theorem diagnosticsNeverFeedBack : Obligations.DiagnosticsNeverFeedBack := by
  intro i s d
  refine ⟨fun t ht => ?_, fun f hfault => ?_⟩
  · by_cases hi : i = .reset
    · subst hi
      cases ht
      exact ⟨[], rfl⟩
    obtain ⟨hr, ⟨hp, rfl⟩ | ⟨hp, rfl⟩⟩ := exec_cases hi ht
    · exact ⟨d, exec_faulted hi hr hp⟩
    · obtain ⟨d', hd'⟩ := bodyOf_ignoresDiag i s d
      refine ⟨d', (exec_ready (s := withDiag d s) hi ⟨hr, hp⟩).trans ?_⟩
      rw [hd', result_withDiag]
      rfl
  · by_cases h : s.refused = false ∨ i = .reset
    · obtain ⟨t, ht⟩ := exec_next h
      simp [hfault] at ht
    · obtain ⟨hr, hi⟩ : s.refused = true ∧ i ≠ .reset := by simpa using h
      cases f
      exact exec_stuck hr hi

end Sys2Proof.Machine
